-- ==== Sys2Proof/Word.lean ====
section
/-! DEFINITION. The word types of the machine: 32-bit words, 5-bit register indices, 30-bit instruction
indices and 16-bit immediate fields (spec/00_scope.md R6, R11). Signedness belongs to the operation that reads a
word (R11), so a word is a plain bit vector. -/

namespace Sys2Proof

/-- A 32-bit word: a register, a data cell, an address, the PC, an instruction word (R6, R11). -/
abbrev Word := BitVec 32

/-- The index of a general register, `0 .. 31`; no other index can be written (R21; 93_implementation_defined.md U4). -/
abbrev Reg := BitVec 5

/-- The index of a program-store entry, `0 .. 2^30 - 1` (R7, R24, R33). -/
abbrev Index := BitVec 30

/-- The 16-bit immediate field `imm16` (R78, R80). -/
abbrev Imm16 := BitVec 16

end Sys2Proof
end

