-- ==== Sys2Proof/Config.lean ====
section
/-! DEFINITION. What is fixed for the machine (spec/00_scope.md R6, R7). The spec leaves no result of an instruction
open, so there is no free value and no `opaque` constant here. -/

namespace Sys2Proof

/-- `GP_RESET`, the reset value of register 28 (R6, R35; taken as given, 93_implementation_defined.md U11). -/
def Config.gpReset : Word := 0x10008000#32

/-- `SP_RESET`, the reset value of register 29 (R6, R35; taken as given, 93_implementation_defined.md U11). -/
def Config.spReset : Word := 0x7FFFFFFC#32

/-- `PC_RESET` (R6, R35, R230). -/
def Config.pcReset : Word := 0x00000000#32

/-- The largest program length: `0 <= N <= 2^30` (R7). -/
def Config.maxProgram : Nat := 2 ^ 30

end Sys2Proof
end

