-- ==== Sys2Proof/Syntax.lean ====
section
/-! DEFINITION. The instructions of `SCMIPS-21` (spec/30_encoding.md R70 to R73, R75, R87), the instruction record of
the record level (R70), and the opcode families (R71). -/

namespace Sys2Proof

/-- What a branch or jump names as its target: a label name, looked up in `LABELS` when the instruction runs (record
level, R70, R184), or the index a word's decoder has already computed (word level, R84, R85, R89). -/
inductive Target where
  /-- A label name (R70). -/
  | label (name : String)
  /-- A resolved target index `t` (R89). -/
  | resolved (t : Index)
  deriving DecidableEq, Repr

/-- The instruction set, one constructor per row of spec/opcode_table.json; operands in the order of the assembly
syntax (R96). `imm16` is `imm[15:0]` of the record (R80); the offset of `lw`, `sw` and the shift literal are the
record's whole 32-bit `imm` (R82, R83). -/
inductive Instr where
  /-- `add $rd, $rs, $rt` (R140). -/
  | add (rd rs rt : Reg)
  /-- `addu $rd, $rs, $rt` (R141). -/
  | addu (rd rs rt : Reg)
  /-- `sub $rd, $rs, $rt` (R142). -/
  | sub (rd rs rt : Reg)
  /-- `and $rd, $rs, $rt` (R143). -/
  | and (rd rs rt : Reg)
  /-- `or $rd, $rs, $rt` (R144). -/
  | or (rd rs rt : Reg)
  /-- `nor $rd, $rs, $rt` (R145). -/
  | nor (rd rs rt : Reg)
  /-- `slt $rd, $rs, $rt` (R146). -/
  | slt (rd rs rt : Reg)
  /-- `sltu $rd, $rs, $rt` (R147). -/
  | sltu (rd rs rt : Reg)
  /-- `sll $rd, $rt, shamt` (R150). -/
  | sll (rd rt : Reg) (imm : Word)
  /-- `srl $rd, $rt, shamt` (R151). -/
  | srl (rd rt : Reg) (imm : Word)
  /-- `sll $zero, $zero, 0`, the halt sentinel (R75, R152). -/
  | halt
  /-- `addi $rt, $rs, imm` (R160). -/
  | addi (rt rs : Reg) (imm16 : Imm16)
  /-- `addiu $rt, $rs, imm` (R161). -/
  | addiu (rt rs : Reg) (imm16 : Imm16)
  /-- `slti $rt, $rs, imm` (R164). -/
  | slti (rt rs : Reg) (imm16 : Imm16)
  /-- `sltiu $rt, $rs, imm` (R165). -/
  | sltiu (rt rs : Reg) (imm16 : Imm16)
  /-- `andi $rt, $rs, imm` (R162). -/
  | andi (rt rs : Reg) (imm16 : Imm16)
  /-- `ori $rt, $rs, imm` (R163). -/
  | ori (rt rs : Reg) (imm16 : Imm16)
  /-- `lw $rt, imm($rs)` (R170). -/
  | lw (rt rs : Reg) (imm : Word)
  /-- `sw $rt, imm($rs)` (R171). -/
  | sw (rt rs : Reg) (imm : Word)
  /-- `beq $rs, $rt, label` (R180). -/
  | beq (rs rt : Reg) (target : Target)
  /-- `bne $rs, $rt, label` (R181). -/
  | bne (rs rt : Reg) (target : Target)
  /-- `j label` (R182). -/
  | j (target : Target)
  deriving DecidableEq, Repr

/-- The `op` field of a record: one of the 21 operations, or `UNSUPPORTED` (R70, R72). The halt sentinel is no value of
`op`: its `op` is `sll` (R71). -/
inductive Op where
  | add | addu | sub | and | or | nor | slt | sltu
  | sll | srl
  | addi | addiu | slti | sltiu | andi | ori
  | lw | sw | beq | bne | j
  /-- Everything else (R71, R90). -/
  | unsupported
  deriving DecidableEq, Repr

/-- The opcode families (R71). -/
inductive Family where
  | rtype | shift | itype | load | store | beq | bne | jump | unsupported
  deriving DecidableEq, Repr

/-- An instruction record (R70). A slot the family does not use is `none` (R73; 92_eei_decisions.md D23). `target` is
the record's `label` slot; in a decoded record it is `resolved t` (R89). -/
structure Record where
  op     : Op
  rs     : Option Reg
  rt     : Option Reg
  rd     : Option Reg
  imm    : Word
  target : Option Target
  text   : String
  deriving DecidableEq, Repr

end Sys2Proof
end

