-- ==== Sys2Proof/Decode.lean ====
section
/-! DEFINITION. The instruction word: its formats (spec/30_encoding.md R77 to R79), the decoder (R84, R85, R88 to R90), the
encoder (R94), and the reading of a record of the record level as an instruction (R73, R75). -/

namespace Sys2Proof

/-! ## Families, register names, literals -/

/-- `family(op)`, the one classification every stage uses (R71). -/
def Op.family : Op → Family
  | .add | .addu | .sub | .and | .or | .nor | .slt | .sltu => .rtype
  | .sll | .srl => .shift
  | .addi | .addiu | .slti | .sltiu | .andi | .ori => .itype
  | .lw => .load
  | .sw => .store
  | .beq => .beq
  | .bne => .bne
  | .j => .jump
  | .unsupported => .unsupported

/-- The operation of an instruction; the halt sentinel is an `sll` (R71, R75). -/
def Instr.op : Instr → Op
  | .add .. => .add
  | .addu .. => .addu
  | .sub .. => .sub
  | .and .. => .and
  | .or .. => .or
  | .nor .. => .nor
  | .slt .. => .slt
  | .sltu .. => .sltu
  | .sll .. => .sll
  | .srl .. => .srl
  | .halt => .sll
  | .addi .. => .addi
  | .addiu .. => .addiu
  | .slti .. => .slti
  | .sltiu .. => .sltiu
  | .andi .. => .andi
  | .ori .. => .ori
  | .lw .. => .lw
  | .sw .. => .sw
  | .beq .. => .beq
  | .bne .. => .bne
  | .j .. => .j

/-- The family of an instruction (R71); the halt sentinel's is SHIFT (R118). -/
def Instr.family (i : Instr) : Family := i.op.family

/-- The assembly names of the registers in the order of their indices (R21). -/
def regNames : List String :=
  ["$zero", "$at", "$v0", "$v1", "$a0", "$a1", "$a2", "$a3"] ++
  ["$t0", "$t1", "$t2", "$t3", "$t4", "$t5", "$t6", "$t7"] ++
  ["$s0", "$s1", "$s2", "$s3", "$s4", "$s5", "$s6", "$s7"] ++
  ["$t8", "$t9", "$k0", "$k1", "$gp", "$sp", "$fp", "$ra"]

/-- The assembly name of a register (R21). -/
def Reg.name (r : Reg) : String := regNames.getD r.toNat ""

/-- The index of a register name, by its position in `names` counted from `at0`. -/
def regIndexIn (name : String) (at0 : Nat) : List String → Option Reg
  | [] => none
  | n :: rest => if n = name then some (BitVec.ofNat 5 at0) else regIndexIn name (at0 + 1) rest

/-- The register a name stands for; a name outside the table is rejected (R97). -/
def Reg.ofName (name : String) : Option Reg := regIndexIn name 0 regNames

/-- The halt pattern on the operands of an `sll`: `rd = 0`, `rt = 0` and all 32 bits of `imm` zero (R75). -/
def isHaltPattern (rd rt : Reg) (imm : Word) : Bool := rd == 0#5 && rt == 0#5 && imm == 0#32

/-- A shift literal is in `0 .. 31` (R74). -/
def shiftAmountOk (imm : Word) : Bool := decide (imm.toNat < 32)

/-! ## Fields (R77 to R79) -/

/-- Bits 31:26. -/
def opcodeOf (w : Word) : BitVec 6 := w.extractLsb' 26 6
/-- Bits 25:21. -/
def rsOf (w : Word) : Reg := w.extractLsb' 21 5
/-- Bits 20:16. -/
def rtOf (w : Word) : Reg := w.extractLsb' 16 5
/-- Bits 15:11. -/
def rdOf (w : Word) : Reg := w.extractLsb' 11 5
/-- Bits 10:6. -/
def shamtOf (w : Word) : BitVec 5 := w.extractLsb' 6 5
/-- Bits 5:0. -/
def functOf (w : Word) : BitVec 6 := w.extractLsb' 0 6
/-- Bits 15:0. -/
def imm16Of (w : Word) : Imm16 := w.extractLsb' 0 16
/-- Bits 25:0. -/
def index26Of (w : Word) : BitVec 26 := w.extractLsb' 0 26

/-! ## Extensions (R12) -/

/-- `sext_16` to 32 bits. -/
def sext16 (v : Imm16) : Word := v.signExtend 32
/-- `zext_16` to 32 bits. -/
def zext16 (v : Imm16) : Word := v.setWidth 32
/-- `zext_5` to 32 bits. -/
def zext5 (v : BitVec 5) : Word := v.setWidth 32

/-! ## Targets (R84, R85) -/

/-- The target index of a `beq` or `bne` word at index `k`: `(k + 1 + s(sext_16(imm16))) mod 2^30` (R84). -/
def branchIndex (k : Index) (imm16 : Imm16) : Index := k + 1#30 + imm16.signExtend 30

/-- The target index of a `j` word at index `k`: `((k + 1) mod 2^30)[29:26] ∥ index26` (R85). -/
def jumpIndex (k : Index) (index26 : BitVec 26) : Index := (k + 1#30).extractLsb' 26 4 ++ index26

/-! ## The decoder -/

/-- Why a word is `UNSUPPORTED` (R90). -/
inductive Unsupported where
  /-- A primary opcode other than the 12 listed. -/
  | opcode
  /-- Opcode 0 with a `funct` other than the 10 listed. -/
  | funct
  /-- An RTYPE `funct` with `shamt != 0`. -/
  | shamtNotZero
  /-- A shift `funct` with `rs != 0`. -/
  | rsNotZero
  deriving DecidableEq, Repr

/-- What the decoder reads from a word: an instruction, or `UNSUPPORTED` with its reason. -/
inductive Decoded where
  | instr (i : Instr)
  | unsupported (why : Unsupported)
  deriving DecidableEq, Repr

/-- An RTYPE word's instruction, refused when `shamt` is not 0 (R77, R90). -/
def decodeRType (make : Reg → Reg → Reg → Instr) (w : Word) : Decoded :=
  if shamtOf w = 0#5 then .instr (make (rdOf w) (rsOf w) (rtOf w)) else .unsupported .shamtNotZero

/-- `sll` or, for the one all-zero word, the halt sentinel (R75, R88, R91). -/
def decodeSll (rd rt : Reg) (imm : Word) : Instr := if isHaltPattern rd rt imm then .halt else .sll rd rt imm

/-- A shift word's instruction, refused when `rs` is not 0 (R77, R83, R90). -/
def decodeShift (make : Reg → Reg → Word → Instr) (w : Word) : Decoded :=
  if rsOf w = 0#5 then .instr (make (rdOf w) (rtOf w) (zext5 (shamtOf w))) else .unsupported .rsNotZero

/-- A word of opcode 0: its instruction by `funct` (R88, R89). -/
def decodeSpecial (w : Word) : Decoded :=
  if functOf w = 0x20#6 then decodeRType .add w
  else if functOf w = 0x21#6 then decodeRType .addu w
  else if functOf w = 0x22#6 then decodeRType .sub w
  else if functOf w = 0x24#6 then decodeRType .and w
  else if functOf w = 0x25#6 then decodeRType .or w
  else if functOf w = 0x27#6 then decodeRType .nor w
  else if functOf w = 0x2A#6 then decodeRType .slt w
  else if functOf w = 0x2B#6 then decodeRType .sltu w
  else if functOf w = 0x00#6 then decodeShift decodeSll w
  else if functOf w = 0x02#6 then decodeShift .srl w
  else .unsupported .funct

/-- `decode(w, k)`: total on all words and all indices (R89, R90). -/
def decode (k : Index) (w : Word) : Decoded :=
  if opcodeOf w = 0x00#6 then decodeSpecial w
  else if opcodeOf w = 0x08#6 then .instr (.addi (rtOf w) (rsOf w) (imm16Of w))
  else if opcodeOf w = 0x09#6 then .instr (.addiu (rtOf w) (rsOf w) (imm16Of w))
  else if opcodeOf w = 0x0A#6 then .instr (.slti (rtOf w) (rsOf w) (imm16Of w))
  else if opcodeOf w = 0x0B#6 then .instr (.sltiu (rtOf w) (rsOf w) (imm16Of w))
  else if opcodeOf w = 0x0C#6 then .instr (.andi (rtOf w) (rsOf w) (imm16Of w))
  else if opcodeOf w = 0x0D#6 then .instr (.ori (rtOf w) (rsOf w) (imm16Of w))
  else if opcodeOf w = 0x23#6 then .instr (.lw (rtOf w) (rsOf w) (sext16 (imm16Of w)))
  else if opcodeOf w = 0x2B#6 then .instr (.sw (rtOf w) (rsOf w) (sext16 (imm16Of w)))
  else if opcodeOf w = 0x04#6 then .instr (.beq (rsOf w) (rtOf w) (.resolved (branchIndex k (imm16Of w))))
  else if opcodeOf w = 0x05#6 then .instr (.bne (rsOf w) (rtOf w) (.resolved (branchIndex k (imm16Of w))))
  else if opcodeOf w = 0x02#6 then .instr (.j (.resolved (jumpIndex k (index26Of w))))
  else .unsupported .opcode

/-- The instruction the decoder reads, at index 0 (the index fetched right after reset), from a word whose bits are
those of `w` below `nbits`; an instruction is one 32-bit word (R76, R93). -/
def decodeTableWord (nbits w : Nat) : Option Instr :=
  match decode 0#30 (BitVec.ofNat 32 (w % 2 ^ nbits)) with
  | .instr i => some i
  | .unsupported _ => none

/-! ## The encoder (R94) -/

/-- The R format (R77). -/
def rWord (rs rt rd shamt : BitVec 5) (funct : BitVec 6) : Word := 0#6 ++ rs ++ rt ++ rd ++ shamt ++ funct
/-- The I format (R78). -/
def iWord (opcode : BitVec 6) (rs rt : Reg) (imm16 : Imm16) : Word := opcode ++ rs ++ rt ++ imm16
/-- The J format (R79). -/
def jWord (index26 : BitVec 26) : Word := 0x02#6 ++ index26

/-- `imm[15:0]` (R80). -/
def low16 (v : Word) : Imm16 := v.setWidth 16

/-- A shift's word, if its literal is in `0 .. 31` (R74, R94). -/
def encodeShift (funct : BitVec 6) (rd rt : Reg) (imm : Word) : Option Word :=
  if shiftAmountOk imm then some (rWord 0#5 rt rd (imm.setWidth 5) funct) else none

/-- A load's or store's word, if its offset is the sign extension of 16 bits (R82, R94). -/
def encodeMem (opcode : BitVec 6) (rt rs : Reg) (imm : Word) : Option Word :=
  if sext16 (low16 imm) = imm then some (iWord opcode rs rt (low16 imm)) else none

/-- A branch's word at index `k`, if its target is resolved and `-32768 <= t - (k + 1) <= 32767` (R84, R94). -/
def encodeBranch (opcode : BitVec 6) (k : Index) (rs rt : Reg) : Target → Option Word
  | .label _ => none
  | .resolved t =>
    if -32768 ≤ (t.toNat : Int) - (k.toNat + 1) ∧ (t.toNat : Int) - (k.toNat + 1) ≤ 32767 then
      some (iWord opcode rs rt (BitVec.ofInt 16 ((t.toNat : Int) - (k.toNat + 1))))
    else none

/-- A jump's word at index `k`, if its target is resolved and `t[29:26] = ((k + 1) mod 2^30)[29:26]` (R85, R94). -/
def encodeJump (k : Index) : Target → Option Word
  | .label _ => none
  | .resolved t =>
    if t.extractLsb' 26 4 = (k + 1#30).extractLsb' 26 4 then some (jWord (t.setWidth 26)) else none

/-- `encode(r, k)`: the word of an instruction at index `k`; `none` when it has no word (R94). -/
def encode (k : Index) : Instr → Option Word
  | .add rd rs rt => some (rWord rs rt rd 0#5 0x20#6)
  | .addu rd rs rt => some (rWord rs rt rd 0#5 0x21#6)
  | .sub rd rs rt => some (rWord rs rt rd 0#5 0x22#6)
  | .and rd rs rt => some (rWord rs rt rd 0#5 0x24#6)
  | .or rd rs rt => some (rWord rs rt rd 0#5 0x25#6)
  | .nor rd rs rt => some (rWord rs rt rd 0#5 0x27#6)
  | .slt rd rs rt => some (rWord rs rt rd 0#5 0x2A#6)
  | .sltu rd rs rt => some (rWord rs rt rd 0#5 0x2B#6)
  | .sll rd rt imm => encodeShift 0x00#6 rd rt imm
  | .srl rd rt imm => encodeShift 0x02#6 rd rt imm
  | .halt => some 0x00000000#32
  | .addi rt rs imm16 => some (iWord 0x08#6 rs rt imm16)
  | .addiu rt rs imm16 => some (iWord 0x09#6 rs rt imm16)
  | .slti rt rs imm16 => some (iWord 0x0A#6 rs rt imm16)
  | .sltiu rt rs imm16 => some (iWord 0x0B#6 rs rt imm16)
  | .andi rt rs imm16 => some (iWord 0x0C#6 rs rt imm16)
  | .ori rt rs imm16 => some (iWord 0x0D#6 rs rt imm16)
  | .lw rt rs imm => encodeMem 0x23#6 rt rs imm
  | .sw rt rs imm => encodeMem 0x2B#6 rt rs imm
  | .beq rs rt target => encodeBranch 0x04#6 k rs rt target
  | .bne rs rt target => encodeBranch 0x05#6 k rs rt target
  | .j target => encodeJump k target

/-! ## The rows of the opcode map (R88) -/

/-- A row of the opcode map: a word `w` is the instruction when `w & mask = pattern`. -/
structure OpcodeRow where
  op      : Op
  mask    : Word
  pattern : Word
  deriving DecidableEq, Repr

/-- The rows of the RTYPE and SHIFT instructions (R88). -/
def specialRows : List OpcodeRow :=
  [⟨.sll, 0xFFE0003F#32, 0x00000000#32⟩, ⟨.srl, 0xFFE0003F#32, 0x00000002#32⟩,
   ⟨.add, 0xFC0007FF#32, 0x00000020#32⟩, ⟨.addu, 0xFC0007FF#32, 0x00000021#32⟩,
   ⟨.sub, 0xFC0007FF#32, 0x00000022#32⟩, ⟨.and, 0xFC0007FF#32, 0x00000024#32⟩,
   ⟨.or, 0xFC0007FF#32, 0x00000025#32⟩, ⟨.nor, 0xFC0007FF#32, 0x00000027#32⟩,
   ⟨.slt, 0xFC0007FF#32, 0x0000002A#32⟩, ⟨.sltu, 0xFC0007FF#32, 0x0000002B#32⟩]

/-- The rows of the other instructions (R88). -/
def primaryRows : List OpcodeRow :=
  [⟨.j, 0xFC000000#32, 0x08000000#32⟩, ⟨.beq, 0xFC000000#32, 0x10000000#32⟩,
   ⟨.bne, 0xFC000000#32, 0x14000000#32⟩, ⟨.addi, 0xFC000000#32, 0x20000000#32⟩,
   ⟨.addiu, 0xFC000000#32, 0x24000000#32⟩, ⟨.slti, 0xFC000000#32, 0x28000000#32⟩,
   ⟨.sltiu, 0xFC000000#32, 0x2C000000#32⟩, ⟨.andi, 0xFC000000#32, 0x30000000#32⟩,
   ⟨.ori, 0xFC000000#32, 0x34000000#32⟩, ⟨.lw, 0xFC000000#32, 0x8C000000#32⟩,
   ⟨.sw, 0xFC000000#32, 0xAC000000#32⟩]

/-- The 21 instruction rows of the opcode map (R88); the halt word is one word of the `sll` row. -/
def opcodeRows : List OpcodeRow := specialRows ++ primaryRows

/-- A word matches a row (R88). -/
def OpcodeRow.covers (row : OpcodeRow) (w : Word) : Bool := w &&& row.mask == row.pattern

/-! ## The record of a word (R89) -/

/-- The hexadecimal digit of four bits. -/
def hexDigit (d : BitVec 4) : Char :=
  if d.toNat < 10 then Char.ofNat (48 + d.toNat) else Char.ofNat (55 + d.toNat)

/-- The 8-digit hexadecimal spelling of a word, the `text` of a decoded record (R89; DESIGN CHOICE: log entry 14). -/
def hex8 (w : Word) : String :=
  String.ofList ([28, 24, 20, 16, 12, 8, 4, 0].map fun n => hexDigit (w.extractLsb' n 4))

/-- The RTYPE operation of a function number (R88). -/
def rtypeOp (fn : BitVec 6) : Option Op :=
  if fn = 0x20#6 then some .add
  else if fn = 0x21#6 then some .addu
  else if fn = 0x22#6 then some .sub
  else if fn = 0x24#6 then some .and
  else if fn = 0x25#6 then some .or
  else if fn = 0x27#6 then some .nor
  else if fn = 0x2A#6 then some .slt
  else if fn = 0x2B#6 then some .sltu
  else none

/-- The SHIFT operation of a function number (R88). -/
def shiftOp (fn : BitVec 6) : Option Op :=
  if fn = 0x00#6 then some .sll else if fn = 0x02#6 then some .srl else none

/-- The ITYPE operation of an opcode (R88). -/
def itypeOp (opc : BitVec 6) : Option Op :=
  if opc = 0x08#6 then some .addi
  else if opc = 0x09#6 then some .addiu
  else if opc = 0x0A#6 then some .slti
  else if opc = 0x0B#6 then some .sltiu
  else if opc = 0x0C#6 then some .andi
  else if opc = 0x0D#6 then some .ori
  else none

/-- The branch operation of an opcode (R88). -/
def branchOp (opc : BitVec 6) : Option Op :=
  if opc = 0x04#6 then some .beq else if opc = 0x05#6 then some .bne else none

/-- The `UNSUPPORTED` record of a word (R89). -/
def unsupportedRecord (w : Word) : Record := ⟨.unsupported, none, none, none, 0#32, none, hex8 w⟩

/-- The record of a word of opcode 0 (R89). -/
def specialRecord (w : Word) : Record :=
  match rtypeOp (functOf w) with
  | some op =>
    if shamtOf w = 0#5 then ⟨op, some (rsOf w), some (rtOf w), some (rdOf w), 0#32, none, hex8 w⟩
    else unsupportedRecord w
  | none =>
    match shiftOp (functOf w) with
    | some op =>
      if rsOf w = 0#5 then ⟨op, none, some (rtOf w), some (rdOf w), zext5 (shamtOf w), none, hex8 w⟩
      else unsupportedRecord w
    | none => unsupportedRecord w

/-- `decode(w, k)` written as the spec writes it, into a record (R89). `decode` above answers the instruction; that the
two agree is an obligation. -/
def decodeRecord (k : Index) (w : Word) : Record :=
  if opcodeOf w = 0x00#6 then specialRecord w
  else
    match itypeOp (opcodeOf w) with
    | some op => ⟨op, some (rsOf w), some (rtOf w), none, zext16 (imm16Of w), none, hex8 w⟩
    | none =>
      if opcodeOf w = 0x23#6 then
        ⟨.lw, some (rsOf w), some (rtOf w), none, sext16 (imm16Of w), none, hex8 w⟩
      else if opcodeOf w = 0x2B#6 then
        ⟨.sw, some (rsOf w), some (rtOf w), none, sext16 (imm16Of w), none, hex8 w⟩
      else
        match branchOp (opcodeOf w) with
        | some op =>
          ⟨op, some (rsOf w), some (rtOf w), none, 0#32, some (.resolved (branchIndex k (imm16Of w))), hex8 w⟩
        | none =>
          if opcodeOf w = 0x02#6 then
            ⟨.j, none, none, none, 0#32, some (.resolved (jumpIndex k (index26Of w))), hex8 w⟩
          else unsupportedRecord w

/-! ## The instruction of a record (R73, R75) -/

/-- What the core reads from a record: an instruction, `UNSUPPORTED`, or a slot the family uses that is `none` (R73). -/
inductive Classified where
  | instr (i : Instr)
  | unsupported
  | slotAbsent
  deriving DecidableEq, Repr

/-- The instruction of three register slots. -/
def fromSlots3 (make : Reg → Reg → Reg → Instr) : Option Reg → Option Reg → Option Reg → Classified
  | some x, some y, some z => .instr (make x y z)
  | _, _, _ => .slotAbsent

/-- The instruction of two register slots. -/
def fromSlots2 (make : Reg → Reg → Instr) : Option Reg → Option Reg → Classified
  | some x, some y => .instr (make x y)
  | _, _ => .slotAbsent

/-- The instruction of two register slots and a target slot. -/
def fromBranchSlots (make : Reg → Reg → Target → Instr) : Option Reg → Option Reg → Option Target → Classified
  | some x, some y, some t => .instr (make x y t)
  | _, _, _ => .slotAbsent

/-- The instruction of a target slot. -/
def fromTarget (make : Target → Instr) : Option Target → Classified
  | some t => .instr (make t)
  | none => .slotAbsent

/-- The instruction a record stands for: its used slots (R73), `imm[15:0]` for ITYPE (R80), the whole `imm` for the
others (R82, R83), the halt sentinel by its pattern (R75). A slot the family does not use is not read. -/
def Record.classify (r : Record) : Classified :=
  match r.op with
  | .add => fromSlots3 .add r.rd r.rs r.rt
  | .addu => fromSlots3 .addu r.rd r.rs r.rt
  | .sub => fromSlots3 .sub r.rd r.rs r.rt
  | .and => fromSlots3 .and r.rd r.rs r.rt
  | .or => fromSlots3 .or r.rd r.rs r.rt
  | .nor => fromSlots3 .nor r.rd r.rs r.rt
  | .slt => fromSlots3 .slt r.rd r.rs r.rt
  | .sltu => fromSlots3 .sltu r.rd r.rs r.rt
  | .sll => fromSlots2 (fun rd rt => decodeSll rd rt r.imm) r.rd r.rt
  | .srl => fromSlots2 (fun rd rt => .srl rd rt r.imm) r.rd r.rt
  | .addi => fromSlots2 (fun rt rs => .addi rt rs (low16 r.imm)) r.rt r.rs
  | .addiu => fromSlots2 (fun rt rs => .addiu rt rs (low16 r.imm)) r.rt r.rs
  | .slti => fromSlots2 (fun rt rs => .slti rt rs (low16 r.imm)) r.rt r.rs
  | .sltiu => fromSlots2 (fun rt rs => .sltiu rt rs (low16 r.imm)) r.rt r.rs
  | .andi => fromSlots2 (fun rt rs => .andi rt rs (low16 r.imm)) r.rt r.rs
  | .ori => fromSlots2 (fun rt rs => .ori rt rs (low16 r.imm)) r.rt r.rs
  | .lw => fromSlots2 (fun rt rs => .lw rt rs r.imm) r.rt r.rs
  | .sw => fromSlots2 (fun rt rs => .sw rt rs r.imm) r.rt r.rs
  | .beq => fromBranchSlots .beq r.rs r.rt r.target
  | .bne => fromBranchSlots .bne r.rs r.rt r.target
  | .j => fromTarget .j r.target
  | .unsupported => .unsupported

end Sys2Proof
end

