-- ==== Sys2Proof/WellFormed.lean ====
section
/-! DEFINITION. Well-formedness: of an instruction record, what the loader owes the core (spec/30_encoding.md R73,
R74), and of an instruction term. Both answer the NAME of the first check that fails. -/

namespace Sys2Proof

/-- What makes an instruction record or an instruction ill formed (R73, R74). -/
inductive IllFormed where
  /-- A slot the family uses is `none` (R73). -/
  | slotMissing
  /-- A slot the family does not use is not `none` (R73), or an unused `imm` is not 0. -/
  | slotNotEmpty
  /-- A shift literal outside `0 .. 31` (R74). -/
  | shiftAmountRange
  /-- An ITYPE literal outside `-32768 .. 65535` (R74). -/
  | immediateRange
  /-- The halt sentinel spelled as an `sll` term: its own constructor is `Instr.halt` (R75). -/
  | haltSpelledSll
  deriving DecidableEq, Repr

/-- An ITYPE literal, as a 32-bit two's-complement value, is in `-32768 .. 65535` (R74). -/
def immediateOk (imm : Word) : Bool := decide (-32768 ≤ imm.toInt) && decide (imm.toInt ≤ 65535)

/-- The first failing check of an instruction term, if any. Every register index and 16-bit field is in range by its
type; LOAD and STORE offsets and branch targets have no range to check (R74). -/
def Instr.illFormed : Instr → Option IllFormed
  | .sll rd rt imm =>
    if isHaltPattern rd rt imm then some .haltSpelledSll
    else if shiftAmountOk imm then none else some .shiftAmountRange
  | .srl _ _ imm => if shiftAmountOk imm then none else some .shiftAmountRange
  | .add .. | .addu .. | .sub .. | .and .. | .or .. | .nor .. | .slt .. | .sltu ..
  | .halt | .addi .. | .addiu .. | .slti .. | .sltiu .. | .andi .. | .ori .. | .lw .. | .sw ..
  | .beq .. | .bne .. | .j .. => none

/-- An instruction term is well formed. -/
def Instr.wellFormed (i : Instr) : Bool := i.illFormed.isNone

/-- Every slot the record's family uses holds a value (R73). -/
def Record.slotsPresent (r : Record) : Bool :=
  match r.op.family with
  | .rtype => r.rs.isSome && r.rt.isSome && r.rd.isSome
  | .shift => r.rt.isSome && r.rd.isSome
  | .itype | .load | .store => r.rs.isSome && r.rt.isSome
  | .beq | .bne => r.rs.isSome && r.rt.isSome && r.target.isSome
  | .jump => r.target.isSome
  | .unsupported => true

/-- Every slot the record's family does not use is `none`, and an unused `imm` is 0 (R73). -/
def Record.othersEmpty (r : Record) : Bool :=
  match r.op.family with
  | .rtype => r.target.isNone && r.imm == 0#32
  | .shift => r.rs.isNone && r.target.isNone
  | .itype | .load | .store => r.rd.isNone && r.target.isNone
  | .beq | .bne => r.rd.isNone && r.imm == 0#32
  | .jump => r.rs.isNone && r.rt.isNone && r.rd.isNone && r.imm == 0#32
  | .unsupported => r.rs.isNone && r.rt.isNone && r.rd.isNone && r.target.isNone && r.imm == 0#32

/-- The first failing check of a record: the loader's duty (R73, R74). -/
def Record.illFormed (r : Record) : Option IllFormed :=
  if !r.slotsPresent then some .slotMissing
  else if !r.othersEmpty then some .slotNotEmpty
  else
    match r.op.family with
    | .shift => if shiftAmountOk r.imm then none else some .shiftAmountRange
    | .itype => if immediateOk r.imm then none else some .immediateRange
    | .rtype | .load | .store | .beq | .bne | .jump | .unsupported => none

/-- A record is well formed: the core is specified for these only (R74). -/
def Record.wellFormed (r : Record) : Bool := r.illFormed.isNone

end Sys2Proof
end

