-- ==== Sys2Proof/Machine/State.lean ====
section
/-! DEFINITION. The state of the machine (spec/10_state.md R20) and the parameters of a run (spec/00_scope.md R7) as plain
data, its reset value (R35), and the reasons a step can stop. -/

namespace Sys2Proof.Machine

/-- One cell of the data memory: an address and the 32-bit word stored there (R29, R52). -/
abbrev Cell := Nat × Word

/-- The data memory: a partial map from 32-bit addresses to 32-bit cells (R20, R29). The listed addresses are the
stored-address set `dom(mem)` (R32); a stored 0 stays listed. The canonical form is `Memory.wf` (log entry 3). -/
structure Memory where
  cells : List Cell
  deriving DecidableEq, Repr

/-- One entry of the program store: a 32-bit word (word level) or a record (record level) (R7, R30; log entry 2). -/
inductive Entry where
  | word (w : Word)
  | record (r : Record)
  deriving DecidableEq, Repr

/-- `run_state` (R26). -/
inductive RunState where
  | running
  | halted
  | exhausted
  | labelError
  deriving DecidableEq, Repr

/-- The state of the machine. The first five fields are all the state the spec gives (R20); `program` (its length is
`N`) and `labels` are the parameters of the run (R7), held here because a step is a function of the state alone (log
entry 1). -/
structure State where
  /-- `x[0..31]` (R21); slot 0 is never read (R22). -/
  regs : Vector Word 32
  /-- `pc` (R24). -/
  pc : Word
  /-- `mem` and `dom(mem)` (R29, R32). -/
  mem : Memory
  /-- `run_state` (R26). -/
  runState : RunState
  /-- `cycle_count`, unbounded (R27). -/
  cycleCount : Nat
  /-- `PROGRAM`, of length `N` (R7, R30). -/
  program : List Entry
  /-- `LABELS` (R7, R33); a label index lies in `0 .. 2^30 - 1`. -/
  labels : List (String × Index)
  deriving DecidableEq, Repr

/-- The machine has no exception and no trap (R200); the one fault marks a program the machine is not specified for. -/
inductive Fault where
  /-- Raised by `step` when the entry at the PC is a record in which a slot its family uses is `none`: "reading a `none`
  slot is an error of the model, not a behaviour of the machine" (R73, R74; 93_implementation_defined.md U6). Safe: the
  machine is given no behaviour there, and no well-formed record raises it. -/
  | slotAbsent
  deriving DecidableEq, Repr

/-- Why a step has no meaning. -/
inductive Refusal where
  /-- Raised by `exec` for an instruction without a meaning; no arm raises it any more. Safe: nothing can be proved of such
  a step. -/
  | notModelled (mnemonic : String)
  deriving DecidableEq, Repr

/-- The registers after reset: all 0 but registers 28 and 29 (R35). -/
def resetRegs : Vector Word 32 :=
  ((Vector.replicate 32 0#32).set 28 Config.gpReset).set 29 Config.spReset

/-- The machine right after reset (R35, R230). No program is in place: the host supplies `PROGRAM` and `LABELS` before
the first cycle (R10, R232; log entry 10), so here `N = 0` and the first step is the empty program's (R233). -/
def State.reset : State where
  regs := resetRegs
  pc := Config.pcReset
  mem := ⟨[]⟩
  runState := .running
  cycleCount := 0
  program := []
  labels := []

end Sys2Proof.Machine
end

