-- ==== Sys2Proof/Machine/Ops.lean ====
section
/-! DEFINITION. The named operations over the registers, the PC, the data memory, the run state and the label table
(spec/00_scope.md R12), the stop operation (spec/60_exceptions.md R201) and the reset edge (spec/70_reset_and_hazards.md
R230). The machine takes no exception (R200): `raiseStop` is the one shared operation that stands in its place. -/

namespace Sys2Proof.Machine

/-! ## The data memory -/

/-- The listed addresses rise strictly from `lo` on and are 32-bit addresses. -/
def cellsRiseFrom (lo : Nat) : List Cell → Bool
  | [] => true
  | (a, _) :: rest => decide (lo ≤ a) && decide (a < 2 ^ 32) && cellsRiseFrom (a + 1) rest

/-- The canonical form of a memory: addresses strictly rising, each below `2^32`. Two memories in this form with the same
cells and the same stored-address set are equal data. -/
def Memory.wf (m : Memory) : Bool := cellsRiseFrom 0 m.cells

/-- The word listed at an address. -/
def cellAt (a : Nat) : List Cell → Option Word
  | [] => none
  | (b, v) :: rest => if b = a then some v else cellAt a rest

/-- The cells with `v` listed at `a`, in rising order. -/
def putCell (a : Nat) (v : Word) : List Cell → List Cell
  | [] => [(a, v)]
  | (b, u) :: rest =>
    if a < b then (a, v) :: (b, u) :: rest
    else if a = b then (a, v) :: rest
    else (b, u) :: putCell a v rest

/-- The cell of the partial map `mem` at an address: `none` when the address was never stored to (R29, R32). -/
def Memory.cell (m : Memory) (addr : Word) : Option Word := cellAt addr.toNat m.cells

/-- What an address never stored to reads as (R29, R50). -/
def unstoredValue : Word := 0x00000000#32

/-- `MemRead(addr, 32)` (R50). -/
def Memory.read (m : Memory) (addr : Word) : Word := (m.cell addr).getD unstoredValue

/-- `MemWrite(addr, 32, v)` (R51). -/
def Memory.write (m : Memory) (addr v : Word) : Memory := ⟨putCell addr.toNat v m.cells⟩

/-! ## Operations over the state -/

/-- `x[r]`: register 0 reads 0 (R12, R22). -/
def State.reg (s : State) (r : Reg) : Word := if r = 0#5 then 0x00000000#32 else s.regs[r.toNat]'r.isLt

/-- `x[r] <- v`: a write to register 0 changes nothing (R12, R22). -/
def State.setReg (s : State) (r : Reg) (v : Word) : State :=
  if r = 0#5 then s else { s with regs := s.regs.set r.toNat v r.isLt }

/-- The word at a data address (R50). -/
def State.memRead (s : State) (addr : Word) : Word := s.mem.read addr

/-- The address is in the stored-address set `dom(mem)` (R32). -/
def State.isStored (s : State) (addr : Word) : Bool := (s.mem.cell addr).isSome

/-- Store a word at a data address (R51). -/
def State.memWrite (s : State) (addr v : Word) : State := { s with mem := s.mem.write addr v }

/-- `PC / 4`, that is `PC[31:2]` (R24). -/
def State.index (s : State) : Index := s.pc.extractLsb' 2 30

/-- `4 * t`, the PC of an instruction index (R24, R25). -/
def pcOfIndex (t : Index) : Word := t ++ 0#2

/-- `pc <- pc + 4`, modulo `2^32` (R25, R133). -/
def State.advancePc (s : State) : State := { s with pc := s.pc + 4#32 }

/-- `pc <- 4 * t` (R25, R184). -/
def State.jumpTo (s : State) (t : Index) : State := { s with pc := pcOfIndex t }

/-- The cycle is counted (R27, R110 step 1). -/
def State.countCycle (s : State) : State := { s with cycleCount := s.cycleCount + 1 }

/-- `raise <Stop>`: the run state becomes the terminal state and nothing else changes (R12, R201). -/
def State.raiseStop (s : State) (stop : RunState) : State := { s with runState := stop }

/-- The halt: `run_state <- Halted; pc <- pc + 4` (R131, R152). -/
def State.haltNow (s : State) : State := (s.raiseStop .halted).advancePc

/-- Steps 9 and 10 of a cycle that writes a register: write back, then advance the PC (R132, R133). -/
def State.writeBack (s : State) (dest : Reg) (wb : Word) : State := (s.setReg dest wb).advancePc

/-- The index of a label name in a label table; the first of two equal names counts (R33; log entry 13). -/
def labelIndex (name : String) : List (String × Index) → Option Index
  | [] => none
  | (n, t) :: rest => if n = name then some t else labelIndex name rest

/-- `resolve(l)`: `none` is `unresolved` (R12, R33); a decoded target needs no table (R86, R89). -/
def State.resolve (s : State) : Target → Option Index
  | .label name => labelIndex name s.labels
  | .resolved t => some t

/-- A clock edge with `rst = 1`: every piece of state takes its reset value, the parameters stay (R230). -/
def State.resetEdge (s : State) : State := { State.reset with program := s.program, labels := s.labels }

end Sys2Proof.Machine
end

