-- ==== Sys2Proof/Machine/Flags.lean ====
section
/-! DEFINITION. The machine has no flags, no condition codes and no carry or overflow output (spec/10_state.md R28,
spec/40_cycle_control_alu.md R120). The truth values it does compute are these: the two set-less-than booleans (R124,
R125) and the branch condition (R114). -/

namespace Sys2Proof.Machine

/-- `s(p) < s(q)`, the exact signed comparison (R124). -/
def lessSigned (p q : Word) : Bool := decide (p.toInt < q.toInt)

/-- `u(p) < u(q)`, the exact unsigned comparison (R125). -/
def lessUnsigned (p q : Word) : Bool := decide (p.toNat < q.toNat)

/-- The boolean as the 32-bit value 1 or 0 (R124). -/
def boolWord (b : Bool) : Word := if b then 0x00000001#32 else 0x00000000#32

/-- `a = b`, a direct 32-bit equality of two register values (R114). -/
def branchEqual (a b : Word) : Bool := decide (a = b)

end Sys2Proof.Machine
end

