-- ==== Sys2Proof/Machine/Alu.lean ====
section
/-! DEFINITION. The ALU (spec/40_cycle_control_alu.md R120 to R127): a pure function from an operation and two operands to
the reported output `out` and the write-back value `wb`. -/

namespace Sys2Proof.Machine

/-- The functions of the ALU (R120). -/
inductive AluFn where
  | add | sub | and | or | nor | slt | sltu | sll | srl
  deriving DecidableEq, Repr

/-- The result pair `(out, wb)` (R120). -/
structure AluResult where
  out : Word
  wb  : Word
  deriving DecidableEq, Repr

/-- The result of an operation with `wb = out` (R120). -/
def aluSame (v : Word) : AluResult := ⟨v, v⟩

/-- `n = q[4:0]`, the shift amount (R127). -/
def shiftAmount (q : Word) : Nat := (q.extractLsb' 0 5).toNat

/-- `ALU(op, p, q)` (R121 to R126). -/
def alu (fn : AluFn) (p q : Word) : AluResult :=
  match fn with
  | .add => aluSame (p + q)
  | .sub => aluSame (p - q)
  | .and => aluSame (p &&& q)
  | .or => aluSame (p ||| q)
  | .nor => aluSame (~~~(p ||| q))
  | .slt => ⟨p - q, boolWord (lessSigned p q)⟩
  | .sltu => ⟨p - q, boolWord (lessUnsigned p q)⟩
  | .sll => aluSame (p <<< shiftAmount q)
  | .srl => aluSame (p >>> shiftAmount q)

/-- The ALU function of an operation, by the table of R120; control flow and `UNSUPPORTED` never invoke the ALU (R113,
R114). -/
def aluFnOf : Op → Option AluFn
  | .add | .addu | .addi | .addiu | .lw | .sw => some .add
  | .sub => some .sub
  | .and | .andi => some .and
  | .or | .ori => some .or
  | .nor => some .nor
  | .slt | .slti => some .slt
  | .sltu | .sltiu => some .sltu
  | .sll => some .sll
  | .srl => some .srl
  | .beq | .bne | .j | .unsupported => none

end Sys2Proof.Machine
end

