-- ==== Sys2Proof/Machine/Operands.lean ====
section
/-! DEFINITION. The operand forms: register pairs, an immediate extended afresh in every cycle (spec/30_encoding.md R80,
R81), the shift literal (R83), base plus offset (spec/44_load_store.md R172); and the operands of a record's cycle
(spec/40_cycle_control_alu.md R110 steps 3, 4 and 6, R129). -/

namespace Sys2Proof.Machine

/-- The two ALU operands `(p, q)`. -/
structure Operands where
  p : Word
  q : Word
  deriving DecidableEq, Repr

/-- RTYPE: `(a, b)` (R129). -/
def rtypeOperands (rs rt : Reg) (s : State) : Operands := ⟨s.reg rs, s.reg rt⟩

/-- ITYPE with a sign-extended immediate: `(a, sext_16(imm16))` (R80, R129). -/
def signedOperands (rs : Reg) (imm16 : Imm16) (s : State) : Operands := ⟨s.reg rs, sext16 imm16⟩

/-- ITYPE with a zero-extended immediate, `andi` and `ori`: `(a, zext_16(imm16))` (R80, R129). -/
def unsignedOperands (rs : Reg) (imm16 : Imm16) (s : State) : Operands := ⟨s.reg rs, zext16 imm16⟩

/-- SHIFT: `(b, imm)`; the register `rs` plays no part (R129). -/
def shiftOperands (rt : Reg) (imm : Word) (s : State) : Operands := ⟨s.reg rt, imm⟩

/-- LOAD and STORE: `(a, imm)` with the 32-bit offset as it is (R82, R129). -/
def memOperands (rs : Reg) (imm : Word) (s : State) : Operands := ⟨s.reg rs, imm⟩

/-- The effective address `(x[rs] + imm) mod 2^32`, neither aligned nor checked (R172). -/
def effectiveAddress (rs : Reg) (imm : Word) (s : State) : Word :=
  (alu .add (memOperands rs imm s).p (memOperands rs imm s).q).out

/-- The immediate of an ITYPE operation, extended from `imm[15:0]` (R80, R110 step 4). -/
def extendFor (op : Op) (imm : Word) : Word :=
  match op with
  | .andi | .ori => zext16 (low16 imm)
  | .add | .addu | .sub | .and | .or | .nor | .slt | .sltu | .sll | .srl | .addi | .addiu | .slti | .sltiu
  | .lw | .sw | .beq | .bne | .j | .unsupported => sext16 (low16 imm)

/-- A pair of operands when both are there. -/
def operandPair : Option Word → Option Word → Option Operands
  | some p, some q => some ⟨p, q⟩
  | _, _ => none

/-- Step 6: the operands `(p, q)` of a record from `a`, `b` and its immediate; `none` when a slot they need is `none`, or
when the family does not use the ALU (R110, R129). -/
def recordOperands (r : Record) (a b : Option Word) : Option Operands :=
  match r.op.family with
  | .rtype => operandPair a b
  | .itype => operandPair a (some (extendFor r.op r.imm))
  | .load | .store => operandPair a (some r.imm)
  | .shift => operandPair b (some r.imm)
  | .beq | .bne | .jump | .unsupported => none

/-- The ALU result of a record's cycle from `a` and `b` (R110 step 6). -/
def recordAlu (r : Record) (a b : Option Word) : Option AluResult :=
  match aluFnOf r.op, recordOperands r a b with
  | some fn, some o => some (alu fn o.p o.q)
  | _, _ => none

/-- A record is the halt sentinel (R75). -/
def isHaltRecord (r : Record) : Bool := r.op == .sll && r.rd == some 0#5 && r.rt == some 0#5 && r.imm == 0#32

end Sys2Proof.Machine
end

