-- ==== Sys2Proof/Machine/Control.lean ====
section
/-! DEFINITION. The control unit (spec/40_cycle_control_alu.md R115 to R119): the control vector of an opcode family. -/

namespace Sys2Proof.Machine

/-- The control vector: eight 1-bit signals and the 2-bit `aluOp` (R115, R116). -/
structure ControlVector where
  regDst   : Bool
  jump     : Bool
  branch   : Bool
  memRead  : Bool
  mem2reg  : Bool
  aluOp    : BitVec 2
  memWrite : Bool
  aluSrc   : Bool
  regWrite : Bool
  deriving DecidableEq, Repr

/-- The all-false default (R115). -/
def ControlVector.none : ControlVector := ⟨false, false, false, false, false, 0#2, false, false, false⟩

/-- `ctrl(fam)`, the table of R115; its five blank cells are 0 (R117). -/
def ctrl : Family → ControlVector
  | .rtype => { ControlVector.none with regDst := true, aluOp := 2#2, regWrite := true }
  | .shift => { ControlVector.none with aluOp := 2#2, aluSrc := true, regWrite := true }
  | .itype => { ControlVector.none with aluSrc := true, regWrite := true }
  | .load => { ControlVector.none with memRead := true, mem2reg := true, aluSrc := true, regWrite := true }
  | .store => { ControlVector.none with memWrite := true, aluSrc := true }
  | .beq => { ControlVector.none with branch := true, aluOp := 1#2 }
  | .bne => { ControlVector.none with branch := true, aluOp := 1#2 }
  | .jump => { ControlVector.none with jump := true }
  | .unsupported => ControlVector.none

end Sys2Proof.Machine
end

