-- ==== Sys2Proof/Machine/BranchJump.lean ====
section
/-! DEFINITION. `beq`, `bne` and `j` (spec/45_branch_jump.md R180 to R184). -/

namespace Sys2Proof.Machine

/-- A taken transfer: `pc <- 4 * t` when the target resolves, else the run stops with `LabelError` and nothing else
changes (R183, R184). -/
def transfer (target : Target) (s : State) : State :=
  match s.resolve target with
  | some t => s.jumpTo t
  | none => s.raiseStop .labelError

/-- A conditional branch: a transfer when the condition holds, else `pc <- pc + 4` with no look-up (R110 step 5, R183). -/
def branchIf (cond : Bool) (target : Target) (s : State) : State := if cond then transfer target s else s.advancePc

/-- `beq` (R180). -/
def execBeq (rs rt : Reg) (target : Target) (s : State) : Host.Outcome State Fault Refusal :=
  .next (branchIf (branchEqual (s.reg rs) (s.reg rt)) target s)

/-- `bne` (R181). -/
def execBne (rs rt : Reg) (target : Target) (s : State) : Host.Outcome State Fault Refusal :=
  .next (branchIf (!branchEqual (s.reg rs) (s.reg rt)) target s)

/-- `j` (R182). -/
def execJ (target : Target) (s : State) : Host.Outcome State Fault Refusal := .next (transfer target s)

end Sys2Proof.Machine
end

