-- ==== Sys2Proof/Machine/IType.lean ====
section
/-! DEFINITION. The ITYPE family (spec/43_itype.md R160 to R166). -/

namespace Sys2Proof.Machine

/-- The common cycle of the family: `x[rt] <- wb` of the ALU on the operands `o`, `pc <- pc + 4` (R166). -/
def execIType (fn : AluFn) (rt : Reg) (o : Operands) (s : State) : Host.Outcome State Fault Refusal :=
  .next (s.writeBack rt (alu fn o.p o.q).wb)

/-- `addi` (R160). -/
def execAddi (rt rs : Reg) (imm16 : Imm16) (s : State) : Host.Outcome State Fault Refusal :=
  execIType .add rt (signedOperands rs imm16 s) s

/-- `addiu`: the immediate is sign-extended (R161). -/
def execAddiu (rt rs : Reg) (imm16 : Imm16) (s : State) : Host.Outcome State Fault Refusal :=
  execIType .add rt (signedOperands rs imm16 s) s

/-- `slti` (R164). -/
def execSlti (rt rs : Reg) (imm16 : Imm16) (s : State) : Host.Outcome State Fault Refusal :=
  execIType .slt rt (signedOperands rs imm16 s) s

/-- `sltiu`: the immediate is sign-extended and compared as unsigned (R165). -/
def execSltiu (rt rs : Reg) (imm16 : Imm16) (s : State) : Host.Outcome State Fault Refusal :=
  execIType .sltu rt (signedOperands rs imm16 s) s

/-- `andi`: the immediate is zero-extended (R162). -/
def execAndi (rt rs : Reg) (imm16 : Imm16) (s : State) : Host.Outcome State Fault Refusal :=
  execIType .and rt (unsignedOperands rs imm16 s) s

/-- `ori`: the immediate is zero-extended (R163). -/
def execOri (rt rs : Reg) (imm16 : Imm16) (s : State) : Host.Outcome State Fault Refusal :=
  execIType .or rt (unsignedOperands rs imm16 s) s

end Sys2Proof.Machine
end

