-- ==== Sys2Proof/Machine/LoadStore.lean ====
section
/-! DEFINITION. `lw` and `sw` (spec/44_load_store.md R170 to R173). -/

namespace Sys2Proof.Machine

/-- `lw`: `x[rt] <- MemRead(x[rs] + imm)`, `pc <- pc + 4` (R170). -/
def execLw (rt rs : Reg) (imm : Word) (s : State) : Host.Outcome State Fault Refusal :=
  .next (s.writeBack rt (s.memRead (effectiveAddress rs imm s)))

/-- `sw`: `MemWrite(x[rs] + imm, x[rt])`, `pc <- pc + 4`; no register is written (R171). -/
def execSw (rt rs : Reg) (imm : Word) (s : State) : Host.Outcome State Fault Refusal :=
  .next (s.memWrite (effectiveAddress rs imm s) (s.reg rt)).advancePc

end Sys2Proof.Machine
end

