-- ==== Sys2Proof/Machine/RType.lean ====
section
/-! DEFINITION. The RTYPE family (spec/41_rtype.md R140 to R148). -/

namespace Sys2Proof.Machine

/-- The common cycle of the family: `x[rd] <- wb` of the ALU on `x[rs]` and `x[rt]`, `pc <- pc + 4` (R148). -/
def execRType (fn : AluFn) (rd rs rt : Reg) (s : State) : Host.Outcome State Fault Refusal :=
  .next (s.writeBack rd (alu fn (rtypeOperands rs rt s).p (rtypeOperands rs rt s).q).wb)

/-- `add` (R140). -/
def execAdd (rd rs rt : Reg) (s : State) : Host.Outcome State Fault Refusal := execRType .add rd rs rt s

/-- `addu` (R141). -/
def execAddu (rd rs rt : Reg) (s : State) : Host.Outcome State Fault Refusal := execRType .add rd rs rt s

/-- `sub` (R142). -/
def execSub (rd rs rt : Reg) (s : State) : Host.Outcome State Fault Refusal := execRType .sub rd rs rt s

/-- `and` (R143). -/
def execAnd (rd rs rt : Reg) (s : State) : Host.Outcome State Fault Refusal := execRType .and rd rs rt s

/-- `or` (R144). -/
def execOr (rd rs rt : Reg) (s : State) : Host.Outcome State Fault Refusal := execRType .or rd rs rt s

/-- `nor` (R145). -/
def execNor (rd rs rt : Reg) (s : State) : Host.Outcome State Fault Refusal := execRType .nor rd rs rt s

/-- `slt` (R146). -/
def execSlt (rd rs rt : Reg) (s : State) : Host.Outcome State Fault Refusal := execRType .slt rd rs rt s

/-- `sltu` (R147). -/
def execSltu (rd rs rt : Reg) (s : State) : Host.Outcome State Fault Refusal := execRType .sltu rd rs rt s

end Sys2Proof.Machine
end

