-- ==== Sys2Proof/Machine/Shift.lean ====
section
/-! DEFINITION. The SHIFT family and the halt sentinel (spec/42_shift_halt.md R150 to R153). -/

namespace Sys2Proof.Machine

/-- The common cycle of the family: `x[rd] <- wb` of the ALU on `x[rt]` and the literal, `pc <- pc + 4` (R153). -/
def execShift (fn : AluFn) (rd rt : Reg) (imm : Word) (s : State) : Host.Outcome State Fault Refusal :=
  .next (s.writeBack rd (alu fn (shiftOperands rt imm s).p (shiftOperands rt imm s).q).wb)

/-- The halt sentinel: the run halts with `pc <- pc + 4` and no write-back (R131, R152). -/
def execHalt (s : State) : Host.Outcome State Fault Refusal := .next s.haltNow

/-- `sll`; with the operands of the halt pattern it is the halt sentinel (R75, R150). -/
def execSll (rd rt : Reg) (imm : Word) (s : State) : Host.Outcome State Fault Refusal :=
  if isHaltPattern rd rt imm then .next s.haltNow else execShift .sll rd rt imm s

/-- `srl` (R151). -/
def execSrl (rd rt : Reg) (imm : Word) (s : State) : Host.Outcome State Fault Refusal := execShift .srl rd rt imm s

end Sys2Proof.Machine
end

