-- ==== Sys2Proof/Machine/Dispatch.lean ====
section
/-! DEFINITION. The dispatch of an instruction to its meaning, one arm per constructor. -/

namespace Sys2Proof.Machine

def exec (i : Instr) (s : State) : Host.Outcome State Fault Refusal :=
  match i with
  -- RTYPE (spec/41_rtype.md)
  | .add rd rs rt => Sys2Proof.Machine.execAdd rd rs rt s
  | .addu rd rs rt => Sys2Proof.Machine.execAddu rd rs rt s
  | .sub rd rs rt => Sys2Proof.Machine.execSub rd rs rt s
  | .and rd rs rt => Sys2Proof.Machine.execAnd rd rs rt s
  | .or rd rs rt => Sys2Proof.Machine.execOr rd rs rt s
  | .nor rd rs rt => Sys2Proof.Machine.execNor rd rs rt s
  | .slt rd rs rt => Sys2Proof.Machine.execSlt rd rs rt s
  | .sltu rd rs rt => Sys2Proof.Machine.execSltu rd rs rt s
  -- SHIFT and the halt sentinel (spec/42_shift_halt.md)
  | .sll rd rt imm => Sys2Proof.Machine.execSll rd rt imm s
  | .srl rd rt imm => Sys2Proof.Machine.execSrl rd rt imm s
  | .halt => Sys2Proof.Machine.execHalt s
  -- ITYPE (spec/43_itype.md)
  | .addi rt rs imm16 => Sys2Proof.Machine.execAddi rt rs imm16 s
  | .addiu rt rs imm16 => Sys2Proof.Machine.execAddiu rt rs imm16 s
  | .slti rt rs imm16 => Sys2Proof.Machine.execSlti rt rs imm16 s
  | .sltiu rt rs imm16 => Sys2Proof.Machine.execSltiu rt rs imm16 s
  | .andi rt rs imm16 => Sys2Proof.Machine.execAndi rt rs imm16 s
  | .ori rt rs imm16 => Sys2Proof.Machine.execOri rt rs imm16 s
  -- LOAD and STORE (spec/44_load_store.md)
  | .lw rt rs imm => Sys2Proof.Machine.execLw rt rs imm s
  | .sw rt rs imm => Sys2Proof.Machine.execSw rt rs imm s
  -- BEQ, BNE, JUMP (spec/45_branch_jump.md)
  | .beq rs rt target => Sys2Proof.Machine.execBeq rs rt target s
  | .bne rs rt target => Sys2Proof.Machine.execBne rs rt target s
  | .j target => Sys2Proof.Machine.execJ target s

end Sys2Proof.Machine
end

