-- ==== Sys2Proof/Machine/Fetch.lean ====
section
/-! DEFINITION. The fetch unit (spec/40_cycle_control_alu.md R110 step 1, R111), what the entry at the PC is, and the
execution of an `UNSUPPORTED` instruction (R113). -/

namespace Sys2Proof.Machine

/-- The entry at the PC: `PROGRAM[k]`, `none` when `k >= N` (R30, R111). -/
def State.entry (s : State) : Option Entry := s.program[s.index.toNat]?

/-- What a fetch finds. -/
inductive Fetched where
  /-- `k >= N`: the end of the program. -/
  | pastEnd
  /-- An instruction. -/
  | instr (i : Instr)
  /-- An `UNSUPPORTED` instruction (R90). -/
  | unsupported
  /-- A record in which a slot its family uses is `none` (R73). -/
  | slotAbsent
  deriving DecidableEq, Repr

/-- A word decoded at its index (R76, R89). -/
def fetchedWord (k : Index) (w : Word) : Fetched :=
  match decode k w with
  | .instr i => .instr i
  | .unsupported _ => .unsupported

/-- A record as it is read by the core (R73). -/
def fetchedRecord (r : Record) : Fetched :=
  match r.classify with
  | .instr i => .instr i
  | .unsupported => .unsupported
  | .slotAbsent => .slotAbsent

/-- The fetch at the PC, decoded every cycle (R76, R111). -/
def State.fetch (s : State) : Fetched :=
  match s.entry with
  | none => .pastEnd
  | some (.word w) => fetchedWord s.index w
  | some (.record r) => fetchedRecord r

/-- The record at the PC: the entry itself, or the record its word decodes to (R70, R89). -/
def State.fetchRecord (s : State) : Option Record :=
  match s.entry with
  | none => none
  | some (.word w) => some (decodeRecord s.index w)
  | some (.record r) => some r

/-- An `UNSUPPORTED` instruction: no register and no memory cell changes, `pc <- pc + 4`, the run goes on (R113, R204). -/
def execUnsupported (s : State) : State := s.advancePc

/-- `PROGRAM` with the entry `e` at index `k`; a shorter program is first filled up with copies of `e` (log entry 11). -/
def placeEntry (program : List Entry) (k : Nat) (e : Entry) : List Entry :=
  if k < program.length then program.set k e else program ++ List.replicate (k + 1 - program.length) e

end Sys2Proof.Machine
end

