-- ==== Sys2Proof/Machine/Step.lean ====
section
/-! DEFINITION. One step of the machine: one `clk` edge with `rst = 0` (spec/00_scope.md R8, spec/40_cycle_control_alu.md
R110). -/

namespace Sys2Proof.Machine

/-- One step. While the run state is `Running` it performs one cycle: the fetch past the end stops the run as `Exhausted`
and is not counted; any other cycle is counted and runs its instruction. In a terminal state nothing changes (R26, R27,
R110, R111, R206). -/
def step (s : State) : Host.Outcome State Fault Refusal :=
  match s.runState with
  | .running =>
    match s.fetch with
    | .pastEnd => .next (s.raiseStop .exhausted)
    | .instr i => exec i s.countCycle
    | .unsupported => .next (execUnsupported s.countCycle)
    | .slotAbsent => .fault .slotAbsent
  | .halted | .exhausted | .labelError => .next s

/-- `s` with the word `w`, its bits from `nbits` on zero, as the entry at the PC and the machine running, so that the next
step runs it (log entry 11). -/
def State.withFetchWord (s : State) (nbits w : Nat) : State :=
  { s with
    runState := .running
    program := placeEntry s.program s.index.toNat (.word (BitVec.ofNat 32 (w % 2 ^ nbits))) }

end Sys2Proof.Machine
end

