-- ==== Sys2Proof/Machine/Load.lean ====
section
/-! DEFINITION. What the host does before the first cycle (spec/00_scope.md R10, spec/70_reset_and_hazards.md R232): it supplies
`PROGRAM` and `LABELS`, which it refuses when they are not what the core is specified for (spec/30_encoding.md R74), and
applies reset. -/

namespace Sys2Proof.Machine

/-- Why a program is refused at load. -/
inductive LoadError where
  /-- More than `2^30` entries (R7). -/
  | programTooLong
  /-- A record that is not well formed (R74). -/
  | illFormedRecord (why : IllFormed)
  deriving DecidableEq, Repr

/-- The first ill-formed record of a program store; every word is a legal entry (R90, R232). -/
def firstIllFormed : List Entry → Option IllFormed
  | [] => none
  | .word _ :: rest => firstIllFormed rest
  | .record r :: rest => if r.wellFormed then firstIllFormed rest else r.illFormed

/-- The machine with a program and its labels in place, right after reset (R232). -/
def load (program : List Entry) (labels : List (String × Index)) : Except LoadError State :=
  if Config.maxProgram < program.length then .error .programTooLong
  else
    match firstIllFormed program with
    | some why => .error (.illFormedRecord why)
    | none => .ok { State.reset with program := program, labels := labels }

end Sys2Proof.Machine
end

