-- ==== Sys2Proof/Machine/Assembly.lean ====
section
/-! DEFINITION. The assembly language that the loader reads (spec/30_encoding.md R95 to R99), from a line already split into
its tokens on: splitting the text, comments and directives, and reading a number's digits are out of scope
(spec/00_scope.md R5, log entry 18). It ends in the program store of the record level or of the word level (R94). -/

namespace Sys2Proof.Machine

/-- An operand of an instruction line (R96). -/
inductive AsmOperand where
  /-- `$name`. -/
  | reg (name : String)
  /-- A literal. -/
  | literal (v : Int)
  /-- `literal($name)`. -/
  | based (v : Int) (base : String)
  /-- A label name. -/
  | label (name : String)
  deriving DecidableEq, Repr

/-- A line: an optional leading label, an optional mnemonic with its operands, and the line's text (R95). -/
structure SourceLine where
  label : Option String
  body  : Option (String × List AsmOperand)
  text  : String
  deriving DecidableEq, Repr

/-- Why the loader or the assembler refuses a program. -/
inductive AsmError where
  /-- A register name outside the table (R97). -/
  | unknownRegister (name : String)
  /-- A literal outside the range its family takes (R74). -/
  | literalRange (v : Int)
  /-- Operands that are not those of the mnemonic's form (R96). -/
  | malformedOperands
  /-- A label index above `2^30 - 1` (R33). -/
  | labelRange
  /-- A label that the table does not have, where a word is wanted (R94). -/
  | unresolvedLabel
  /-- A record that has no word (R94). -/
  | notEncodable
  deriving DecidableEq, Repr

/-- The mnemonics of the RTYPE and SHIFT operations (R72). -/
def registerMnemonics : List (String × Op) :=
  [("add", .add), ("addu", .addu), ("sub", .sub), ("and", .and), ("or", .or), ("nor", .nor), ("slt", .slt),
   ("sltu", .sltu), ("sll", .sll), ("srl", .srl)]

/-- The other mnemonics (R72). -/
def otherMnemonics : List (String × Op) :=
  [("addi", .addi), ("addiu", .addiu), ("slti", .slti), ("sltiu", .sltiu), ("andi", .andi), ("ori", .ori), ("lw", .lw),
   ("sw", .sw), ("beq", .beq), ("bne", .bne), ("j", .j)]

/-- The 21 mnemonics and their operations (R72). -/
def mnemonics : List (String × Op) := registerMnemonics ++ otherMnemonics

/-- The operation a mnemonic names in a table of mnemonics; any other mnemonic is `UNSUPPORTED` (R99). -/
def opIn (name : String) : List (String × Op) → Op
  | [] => .unsupported
  | (n, op) :: rest => if n = name then op else opIn name rest

/-- The operation of a mnemonic (R72, R99). -/
def opOfMnemonic (name : String) : Op := opIn name mnemonics

/-- A register operand; an unknown name is refused (R97). -/
def asmReg (name : String) : Except AsmError Reg :=
  match Reg.ofName name with
  | some r => .ok r
  | none => .error (.unknownRegister name)

/-- A literal within `lo .. hi`, as a 32-bit two's-complement value (R74). -/
def asmLiteral (lo hi v : Int) : Except AsmError Word :=
  if lo ≤ v ∧ v ≤ hi then .ok (BitVec.ofInt 32 v) else .error (.literalRange v)

/-- The operands `$x, $y, $z` (R96). -/
def asmRegs3 : List AsmOperand → Except AsmError (Reg × Reg × Reg)
  | [.reg x, .reg y, .reg z] => do return (← asmReg x, ← asmReg y, ← asmReg z)
  | _ => .error .malformedOperands

/-- The operands `$x, $y, literal` (R96). -/
def asmRegsLiteral (lo hi : Int) : List AsmOperand → Except AsmError (Reg × Reg × Word)
  | [.reg x, .reg y, .literal v] => do return (← asmReg x, ← asmReg y, ← asmLiteral lo hi v)
  | _ => .error .malformedOperands

/-- The operands `$x, literal($y)` (R96); a literal that is no 32-bit two's-complement value is refused (R82). -/
def asmRegBased : List AsmOperand → Except AsmError (Reg × Reg × Word)
  | [.reg x, .based v y] => do return (← asmReg x, ← asmReg y, ← asmLiteral (-2147483648) 2147483647 v)
  | _ => .error .malformedOperands

/-- The operands `$x, $y, label` (R96). -/
def asmRegsLabel : List AsmOperand → Except AsmError (Reg × Reg × String)
  | [.reg x, .reg y, .label l] => do return (← asmReg x, ← asmReg y, l)
  | _ => .error .malformedOperands

/-- The operand `label` (R96). -/
def asmLabel : List AsmOperand → Except AsmError String
  | [.label l] => .ok l
  | _ => .error .malformedOperands

/-- The record of an instruction line: the operands fill the slots of the operation's family (R73, R96); an unknown mnemonic
gives an `UNSUPPORTED` record whatever its operands (R99). -/
def asmRecord (op : Op) (operands : List AsmOperand) (text : String) : Except AsmError Record :=
  match op.family with
  | .rtype => do
    let (rd, rs, rt) ← asmRegs3 operands
    return ⟨op, some rs, some rt, some rd, 0#32, none, text⟩
  | .shift => do
    let (rd, rt, imm) ← asmRegsLiteral 0 31 operands
    return ⟨op, none, some rt, some rd, imm, none, text⟩
  | .itype => do
    let (rt, rs, imm) ← asmRegsLiteral (-32768) 65535 operands
    return ⟨op, some rs, some rt, none, imm, none, text⟩
  | .load | .store => do
    let (rt, rs, imm) ← asmRegBased operands
    return ⟨op, some rs, some rt, none, imm, none, text⟩
  | .beq | .bne => do
    let (rs, rt, l) ← asmRegsLabel operands
    return ⟨op, some rs, some rt, none, 0#32, some (.label l), text⟩
  | .jump => do
    let l ← asmLabel operands
    return ⟨op, none, none, none, 0#32, some (.label l), text⟩
  | .unsupported => return ⟨.unsupported, none, none, none, 0#32, none, text⟩

/-- The records of a source text: one for each instruction line, in order (R95). -/
def assemble : List SourceLine → Except AsmError (List Record)
  | [] => .ok []
  | line :: rest =>
    match line.body with
    | none => assemble rest
    | some (name, operands) => do
      let r ← asmRecord (opOfMnemonic name) operands line.text
      let rs ← assemble rest
      return r :: rs

/-- The label table of a source text, `k` instruction lines in: a label stands for the index of the instruction it precedes
(R98). -/
def labelTable (k : Nat) : List SourceLine → Except AsmError (List (String × Index))
  | [] => .ok []
  | line :: rest => do
    let table ← labelTable (if line.body.isSome then k + 1 else k) rest
    match line.label with
    | none => return table
    | some name => if k < Config.maxProgram then return (name, BitVec.ofNat 30 k) :: table else .error .labelRange

/-- The instruction with its label replaced by the resolved index `t`, what the assembler does before it encodes (R94). -/
def resolvedAt (t : Index) : Instr → Instr
  | .beq rs rt _ => .beq rs rt (.resolved t)
  | .bne rs rt _ => .bne rs rt (.resolved t)
  | .j _ => .j (.resolved t)
  | i => i

/-- The target of a label slot as the assembler needs it: no target for a record without one, the resolved index for a
label of the table (R94). -/
def asmTarget (labels : List (String × Index)) : Option Target → Except AsmError Index
  | none => .ok 0#30
  | some (.resolved t) => .ok t
  | some (.label name) =>
    match labelIndex name labels with
    | some t => .ok t
    | none => .error .unresolvedLabel

/-- The word of a record at index `k` (R94). -/
def asmWord (labels : List (String × Index)) (k : Index) (r : Record) : Except AsmError Word := do
  let t ← asmTarget labels r.target
  match r.classify with
  | .instr i =>
    match encode k (resolvedAt t i) with
    | some w => return w
    | none => .error .notEncodable
  | .unsupported | .slotAbsent => .error .notEncodable

/-- The words of a program whose first record stands at index `k` (R94). -/
def assembleWords (labels : List (String × Index)) (k : Nat) : List Record → Except AsmError (List Word)
  | [] => .ok []
  | r :: rest => do
    let w ← asmWord labels (BitVec.ofNat 30 k) r
    let ws ← assembleWords labels (k + 1) rest
    return w :: ws

/-- The program store and the label table of a source text, at the record level (R95 to R99). -/
def assembleProgram (lines : List SourceLine) : Except AsmError (List Entry × List (String × Index)) := do
  let records ← assemble lines
  let labels ← labelTable 0 lines
  return (records.map .record, labels)

/-- The program store of a source text at the word level; no label table is needed there (R86, R94). -/
def assembleWordProgram (lines : List SourceLine) : Except AsmError (List Entry) := do
  let records ← assemble lines
  let labels ← labelTable 0 lines
  let words ← assembleWords labels 0 records
  return words.map .word

end Sys2Proof.Machine
end

