-- ==== Sys2Proof/Machine/Cycle.lean ====
section
/-! DEFINITION. The cycle written step by step as the spec writes it (spec/40_cycle_control_alu.md R110), over the record at
the PC and the control vector of its family. It is the clear version of `step`: that the two agree is an obligation. -/

namespace Sys2Proof.Machine

/-- Step 5, the transfer to a record's target slot. -/
def cycleTransfer (r : Record) (s : State) : Host.Outcome State Fault Refusal :=
  match r.target with
  | none => .fault .slotAbsent
  | some l =>
    match s.resolve l with
    | none => .next (s.raiseStop .labelError)
    | some t => .next (s.jumpTo t)

/-- Step 5, a branch on `a` and `b`; `taken` is the condition's value. -/
def cycleBranch (r : Record) (taken : Word → Word → Bool) (a b : Option Word) (s : State) :
    Host.Outcome State Fault Refusal :=
  match a, b with
  | some a, some b => if taken a b then cycleTransfer r s else .next s.advancePc
  | _, _ => .fault .slotAbsent

/-- Step 9: the destination slot, `rd` for RTYPE and SHIFT, `rt` for ITYPE and LOAD, whatever `regDst` says (R116, R132). -/
def destination (r : Record) : Option Reg :=
  match r.op.family with
  | .rtype | .shift => r.rd
  | .itype | .load | .store | .beq | .bne | .jump | .unsupported => r.rt

/-- Steps 8 to 10: the halt check, the write-back when `regWrite` is 1, the PC advance. -/
def cycleFinish (r : Record) (wb : Word) (s : State) : Host.Outcome State Fault Refusal :=
  if isHaltRecord r then .next s.haltNow
  else if (ctrl r.op.family).regWrite then
    match destination r with
    | none => .fault .slotAbsent
    | some dest => .next (s.setReg dest wb).advancePc
  else .next s.advancePc

/-- Step 7: a load reads the cell at `out`, a store writes `b` there, by `memRead`, `memWrite` and `mem2reg`. -/
def cycleMemory (r : Record) (b : Option Word) (res : AluResult) (s : State) : Host.Outcome State Fault Refusal :=
  let wb := if (ctrl r.op.family).mem2reg then s.memRead res.out else res.wb
  if (ctrl r.op.family).memWrite then
    match b with
    | none => .fault .slotAbsent
    | some v => cycleFinish r wb (s.memWrite res.out v)
  else cycleFinish r wb s

/-- Steps 2 to 10 of the cycle of a record. -/
def cycleOf (r : Record) (s : State) : Host.Outcome State Fault Refusal :=
  let a := r.rs.map s.reg
  let b := r.rt.map s.reg
  match r.op.family with
  | .unsupported => .next s.advancePc
  | .jump => cycleTransfer r s
  | .beq => cycleBranch r (fun a b => a == b) a b s
  | .bne => cycleBranch r (fun a b => a != b) a b s
  | .rtype | .shift | .itype | .load | .store =>
    match recordAlu r a b with
    | none => .fault .slotAbsent
    | some res => cycleMemory r b res s

/-- `cycle()` of R110, performed while the run state is `Running`; in a terminal state no cycle runs (R206). -/
def cycle (s : State) : Host.Outcome State Fault Refusal :=
  if s.runState = .running then
    match s.fetchRecord with
    | none => .next (s.raiseStop .exhausted)
    | some r => cycleOf r s.countCycle
  else .next s

end Sys2Proof.Machine
end

