-- ==== Sys2Proof/Machine/Monitor.lean ====
section
/-! DEFINITION. The monitor record of a cycle and the final summary (spec/46_monitor.md R190 to R196). They carry no state of
their own: each is a function of the state (R20, R34, R191). -/

namespace Sys2Proof.Machine

/-- The monitor record (R190); an absent value is `none`. -/
structure MonitorRecord where
  cycle       : Nat
  pcBefore    : Word
  text        : String
  reg1        : Option Reg
  reg2        : Option Reg
  reg3        : Option Reg
  val1        : Option Word
  val2        : Option Word
  val3        : Option Word
  aluOut      : Option Word
  label       : Option Target
  memAddr     : Option Word
  stored      : Option Word
  loaded      : Option Word
  ctrl        : ControlVector
  unsupported : Bool
  deriving DecidableEq, Repr

/-- The three operand slots of a record, first source, second source, destination (R192). -/
def operandSlots (r : Record) : Option Reg × Option Reg × Option Reg :=
  match r.op.family with
  | .rtype => (r.rs, r.rt, r.rd)
  | .shift => (r.rt, none, r.rd)
  | .itype | .load | .store => (r.rs, none, r.rt)
  | .beq | .bne => (r.rs, r.rt, none)
  | .jump | .unsupported => (none, none, none)

/-- `alu_out`: the ALU's `out`, absent for control flow and `UNSUPPORTED` (R193). -/
def monitorAluOut (r : Record) (before : State) : Option Word :=
  (recordAlu r (r.rs.map before.reg) (r.rt.map before.reg)).map (·.out)

/-- `label`: the target of a `beq` or `bne`, taken or not, absent for every other instruction (R195). -/
def monitorLabel (r : Record) : Option Target :=
  match r.op.family with
  | .beq | .bne => r.target
  | .rtype | .shift | .itype | .load | .store | .jump | .unsupported => none

/-- A value reported in a cycle of the families for which `c` holds only. -/
def reportWhen (c : Bool) (v : Option Word) : Option Word := if c then v else none

/-- The monitor record of a cycle that executed the record `r`, from the state before and the state after (R190 to R195). -/
def recordOfCycle (r : Record) (before after : State) : MonitorRecord :=
  let c := Sys2Proof.Machine.ctrl r.op.family
  let addr := reportWhen (c.memRead || c.memWrite) (monitorAluOut r before)
  { cycle := before.cycleCount + 1
    pcBefore := before.pc
    text := r.text
    reg1 := (operandSlots r).1
    reg2 := (operandSlots r).2.1
    reg3 := (operandSlots r).2.2
    val1 := (operandSlots r).1.map after.reg
    val2 := (operandSlots r).2.1.map after.reg
    val3 := (operandSlots r).2.2.map after.reg
    aluOut := monitorAluOut r before
    label := monitorLabel r
    memAddr := addr
    stored := reportWhen c.memWrite (r.rt.map before.reg)
    loaded := reportWhen c.memRead (addr.map before.memRead)
    ctrl := c
    unsupported := decide (r.op = .unsupported) }

/-- The monitor record of the cycle the machine performs from `s`: one for every cycle that fetches an instruction, none
when the run has stopped or the fetch finds the end of the program (R190). -/
def State.monitor (s : State) : Option MonitorRecord :=
  match s.runState, s.fetchRecord, step s with
  | .running, some r, .next after => some (recordOfCycle r s after)
  | _, _, _ => none

/-- The final summary (R196). -/
structure Summary where
  finalPc : Word
  regs    : List Word
  memory  : List Cell
  cycles  : Nat
  stop    : RunState
  deriving DecidableEq, Repr

/-- The 32 register values, register 0 as 0 (R196). -/
def State.registerValues (s : State) : List Word := (List.finRange 32).map fun n => s.reg (BitVec.ofFin n)

/-- The final summary, available in every terminal state (R196). -/
def State.summary (s : State) : Option Summary :=
  match s.runState with
  | .running => none
  | .halted | .exhausted | .labelError =>
    some ⟨s.pc, s.registerValues, s.mem.cells, s.cycleCount, s.runState⟩

end Sys2Proof.Machine
end

