-- ==== Sys2Proof/Machine/Ports.lean ====
section
/-! DEFINITION. The ports of the block and its clock edge (spec/00_scope.md R8, spec/10_state.md R26,
spec/70_reset_and_hazards.md R230). No rule depends on the ports; they are functions of the state. -/

namespace Sys2Proof.Machine

/-- The code of the run state on the `run_state` port (R26). -/
def RunState.code : RunState → BitVec 2
  | .running => 0#2
  | .halted => 1#2
  | .exhausted => 2#2
  | .labelError => 3#2

/-- The ports other than `clk` and `rst` (R8). A data port that carries nothing in a cycle is `none` (log entry 15). -/
structure Ports where
  imemAddr   : Word
  imemValid  : Bool
  imemData   : Option Entry
  dmemAddr   : Option Word
  dmemRe     : Bool
  dmemRdata  : Option Word
  dmemWe     : Bool
  dmemWdata  : Option Word
  runState   : BitVec 2
  cycleCount : Nat
  monitor    : Option MonitorRecord
  deriving DecidableEq, Repr

/-- The record on the `monitor` port: that of the cycle the machine performs from `s` when `rst = 0`, none when `rst = 1`,
where no cycle is performed (R8, R230). -/
def State.monitorPort (s : State) (rst : Bool) : Option MonitorRecord := if rst then none else s.monitor

/-- `dmem_addr`: the ALU result of a load or store, none in any other cycle and on a reset edge (R8). -/
def State.dmemAddr (s : State) (rst : Bool) : Option Word := (s.monitorPort rst).bind (·.memAddr)

/-- The ports ahead of the clock edge with the given `rst`: with `rst = 0` those of the cycle performed from `s`, with
`rst = 1` those of a reset edge, where no cycle is performed. `dmem_rdata` is the cell at `dmem_addr`, in a store's cycle as
in a load's; as every port it shows the state before the edge (R8, R230). -/
def State.ports (s : State) (rst : Bool) : Ports :=
  { imemAddr := s.pc
    imemValid := decide (s.index.toNat < s.program.length)
    imemData := s.entry
    dmemAddr := s.dmemAddr rst
    dmemRe := ((s.monitorPort rst).bind (·.loaded)).isSome
    dmemRdata := (s.dmemAddr rst).map s.memRead
    dmemWe := ((s.monitorPort rst).bind (·.stored)).isSome
    dmemWdata := (s.monitorPort rst).bind (·.stored)
    runState := s.runState.code
    cycleCount := s.cycleCount
    monitor := s.monitorPort rst }

/-- One rising edge of `clk`: with `rst = 1` the reset of R230 and no cycle, whatever the run state; with `rst = 0` one step. -/
def clockEdge (rst : Bool) (s : State) : Host.Outcome State Fault Refusal := if rst then .next s.resetEdge else step s

end Sys2Proof.Machine
end

