-- ==== Sys2Proof/Safety.lean ====
section
/-! DEFINITION. The terms claims are stated in: the invariant of the machine, what an instruction leaves unchanged, and the
programs of one level. -/

namespace Sys2Proof.Machine

/-- The invariant of the machine: the unread slot of register 0 holds 0 (R22), the PC is a multiple of 4 (R24), the memory
is in its canonical form (R29; log entry 3), and the program has at most `2^30` entries (R7). -/
structure State.Inv (s : State) : Prop where
  slotZero : s.regs[0] = 0x00000000#32
  pcAligned : s.pc.toNat % 4 = 0
  memCanonical : s.mem.wf = true
  programBound : s.program.length ≤ Config.maxProgram

/-- Every cell of the data memory reads as before and the stored-address set is as before. -/
def SameMemory (s t : State) : Prop :=
  (∀ a, t.memRead a = s.memRead a) ∧ ∀ a, t.isStored a = s.isStored a

/-- Every cell but the one at `addr` reads as before and is in the stored-address set as before. -/
def SameMemoryBut (addr : Word) (s t : State) : Prop :=
  (∀ a, a ≠ addr → t.memRead a = s.memRead a) ∧ ∀ a, a ≠ addr → t.isStored a = s.isStored a

/-- Every register reads as before. -/
def SameRegs (s t : State) : Prop := ∀ r, t.reg r = s.reg r

/-- The parameters of the run are as before. -/
def SameParameters (s t : State) : Prop := t.program = s.program ∧ t.labels = s.labels

/-- The run state and the cycle counter are as before. -/
def SameRun (s t : State) : Prop := t.runState = s.runState ∧ t.cycleCount = s.cycleCount

/-- In every state the instruction completes: it writes `v` to register `dest` (nothing when `dest` is register 0),
advances the PC by 4, and leaves everything else unchanged. -/
def WritesRegister (i : Instr) (dest : Reg) (v : State → Word) : Prop :=
  ∀ s, ∃ t, exec i s = .next t ∧
    (∀ r, t.reg r = if r = dest ∧ dest ≠ 0#5 then v s else s.reg r) ∧
    t.pc = s.pc + 4#32 ∧ SameMemory s t ∧ SameRun s t ∧ SameParameters s t

/-- In the state `s` the instruction completes as a control transfer: the PC becomes `newPc` and nothing else changes. -/
def SetsOnlyPc (i : Instr) (s : State) (newPc : Word) : Prop :=
  ∃ t, exec i s = .next t ∧ t.pc = newPc ∧ SameRegs s t ∧ SameMemory s t ∧ SameRun s t ∧ SameParameters s t

/-- In the state `s` the instruction stops the run with `LabelError` and nothing else changes. -/
def StopsWithLabelError (i : Instr) (s : State) : Prop :=
  ∃ t, exec i s = .next t ∧ t.runState = .labelError ∧ t.cycleCount = s.cycleCount ∧ t.pc = s.pc ∧
    SameRegs s t ∧ SameMemory s t ∧ SameParameters s t

/-- Every entry of the program store is a word: a program of the word level (R7, R76). -/
def State.wordLevel (s : State) : Prop := ∀ e ∈ s.program, ∃ w, e = .word w

/-- Every record of the program store has the slots its family uses (R73). -/
def State.slotsPresent (s : State) : Prop := ∀ r, .record r ∈ s.program → r.slotsPresent = true

/-- The cycle the machine performs from `s` is a `sw` to the address `a`. -/
def State.storesTo (s : State) (a : Word) : Prop :=
  s.runState = .running ∧ ∃ rt rs imm, s.fetch = .instr (.sw rt rs imm) ∧ effectiveAddress rs imm s = a

/-- The target an instruction names, if it is a control transfer (R73). -/
def targetOf : Instr → Option Target
  | .beq _ _ target | .bne _ _ target | .j target => some target
  | _ => none

/-- The register an instruction names as its destination: `rd` for RTYPE and SHIFT, `rt` for ITYPE and LOAD (R116, R132). -/
def destinationOf : Instr → Option Reg
  | .add rd _ _ | .addu rd _ _ | .sub rd _ _ | .and rd _ _ | .or rd _ _ | .nor rd _ _ | .slt rd _ _ | .sltu rd _ _ => some rd
  | .sll rd _ _ | .srl rd _ _ => some rd
  | .addi rt _ _ | .addiu rt _ _ | .slti rt _ _ | .sltiu rt _ _ | .andi rt _ _ | .ori rt _ _ | .lw rt _ _ => some rt
  | .halt | .sw .. | .beq .. | .bne .. | .j .. => none

end Sys2Proof.Machine
end

