-- ==== Sys2Proof/Certificates/Slice0/Obligations.lean ====
section
/-! DEFINITION. The statements about the machine, each with the rules of spec/ it rests on. `[spec's decision D<n>]` marks a
clause that the spec itself records as its own decision (92_eei_decisions.md); `[log <n>]` marks one that is the model's
(notes/assumptions/<n>.md). -/

open Sys2Proof Sys2Proof.Machine

/-! ## Reset, load, invariant -/

/-- R35: the reset value of every piece of state. The run state and the cycle counter are the [spec's decision D16]. -/
def Obligations.ResetGivesTheStatedValues : Prop :=
  (∀ r : Reg, State.reset.reg r =
    if r = 28#5 then 0x10008000#32 else if r = 29#5 then 0x7FFFFFFC#32 else 0x00000000#32) ∧
  State.reset.pc = 0x00000000#32 ∧
  (∀ a, State.reset.memRead a = 0x00000000#32 ∧ State.reset.isStored a = false) ∧
  State.reset.runState = .running ∧ State.reset.cycleCount = 0

/-- The invariant holds at reset. -/
def Obligations.ResetSatisfiesInvariant : Prop := State.reset.Inv

/-- Every step keeps the invariant: register 0's unread slot, the PC's alignment (R24), the canonical memory [log 3], the
bound on the program (R7). -/
def Obligations.StepKeepsInvariant : Prop := ∀ s t, s.Inv → step s = .next t → t.Inv

/-- R7, R74, R232: the loader accepts exactly the programs the core is specified for, and then puts them in place of an
otherwise reset machine. Refusing a literal that does not fit is the [spec's decision D18], the bound on the length the [spec's
decision D9]. -/
def Obligations.LoadAcceptsExactlyTheSpecifiedPrograms : Prop :=
  ∀ (program : List Entry) (labels : List (String × Index)),
    ((∃ s, load program labels = .ok s) ↔
      program.length ≤ 2 ^ 30 ∧ ∀ r, Entry.record r ∈ program → r.wellFormed = true) ∧
    ∀ s, load program labels = .ok s → s = { State.reset with program := program, labels := labels } ∧ s.Inv

/-- R134, R200: a loaded program runs for any number of steps with no fault and no refusal, and keeps the invariant. -/
def Obligations.LoadedProgramNeverFaults : Prop :=
  ∀ (program : List Entry) (labels : List (String × Index)) (s : State) (n : Nat),
    load program labels = .ok s → ∃ t, Sys2Proof.core.run n s = .next t ∧ t.Inv

/-- R230: a clock edge with `rst = 1` gives every piece of state its reset value, whatever the state, and leaves the
parameters; with `rst = 0` it is a step [spec's decision D16]. -/
def Obligations.ResetEdgeRestoresTheResetState : Prop :=
  ∀ s, (∃ t, clockEdge true s = .next t ∧ SameRegs State.reset t ∧ t.pc = State.reset.pc ∧
      SameMemory State.reset t ∧ SameRun State.reset t ∧ SameParameters s t ∧ (s.program.length ≤ 2 ^ 30 → t.Inv)) ∧
    clockEdge false s = step s

/-! ## Data memory -/

/-- R50: a read gives the stored cell or 0, and the instruction that reads changes no memory and does not stop. -/
def Obligations.MemReadGivesTheCellOrZero : Prop :=
  ∀ (s : State) (a : Word),
    (s.isStored a = false → s.memRead a = 0x00000000#32) ∧
    (∀ v, s.mem.cell a = some v → s.memRead a = v) ∧
    ∀ rt rs imm, ∃ t, exec (.lw rt rs imm) s = .next t ∧ t.mem = s.mem ∧ t.runState = s.runState

/-- R51: storing a word and then loading from the address gives the word, whichever register receives it other than 0. -/
def Obligations.StoreThenLoadReturnsTheValue : Prop :=
  ∀ (s t : State) (rt rs rt' rs' : Reg) (imm imm' : Word),
    exec (.sw rt rs imm) s = .next t → effectiveAddress rs' imm' t = effectiveAddress rs imm s → rt' ≠ 0#5 →
    ∃ u, exec (.lw rt' rs' imm') t = .next u ∧ u.reg rt' = s.reg rt

/-- [log 3]: two memories in canonical form with the same cells and the same stored-address set are equal data. -/
def Obligations.CanonicalMemoriesWithEqualCellsAreEqual : Prop :=
  ∀ m n : Memory, m.wf = true → n.wf = true → (∀ a, m.cell a = n.cell a) → m = n

/-- R32: an address never leaves the stored-address set. -/
def Obligations.StoredSetOnlyGrows : Prop :=
  ∀ s t, step s = .next t → ∀ a, s.isStored a = true → t.isStored a = true

/-- R54: a step changes the cell at an address only if its cycle is a `sw` to that address. -/
def Obligations.OnlyAStoreToTheAddressChangesItsCell : Prop :=
  ∀ s t a, step s = .next t → ¬ s.storesTo a → t.memRead a = s.memRead a ∧ t.isStored a = s.isStored a

/-- R57 (1): after a `sw` to `a`, any number of cycles none of which stores to `a` leave the stored value there to be read. -/
def Obligations.ReadReturnsTheMostRecentStore : Prop :=
  ∀ (s s' t : State) (rt rs : Reg) (imm : Word) (n : Nat),
    s.runState = .running → s.fetch = .instr (.sw rt rs imm) → step s = .next s' →
    (∀ m < n, ∀ u, Sys2Proof.core.run m s' = .next u → ¬ u.storesTo (effectiveAddress rs imm s)) →
    Sys2Proof.core.run n s' = .next t → t.memRead (effectiveAddress rs imm s) = s.reg rt

/-! ## The ALU and the immediates -/

/-- R121: addition wraps, is not checked for overflow, and is one function for `add`, `addu`, `addi` and `addiu`. -/
def Obligations.AluAdditionWraps : Prop :=
  (∀ p q, (alu .add p q).out.toNat = (p.toNat + q.toNat) % 2 ^ 32 ∧ (alu .add p q).wb = (alu .add p q).out) ∧
  (∀ op ∈ [Op.add, .addu, .addi, .addiu, .lw, .sw], aluFnOf op = some .add) ∧
  (∀ rd rs rt s, exec (.add rd rs rt) s = exec (.addu rd rs rt) s) ∧
  (∀ rt rs v s, exec (.addi rt rs v) s = exec (.addiu rt rs v) s) ∧
  (alu .add 0x7FFFFFFF#32 1#32).out = 0x80000000#32 ∧ (alu .add 0xFFFFFFFF#32 1#32).out = 0x00000000#32

/-- R122: subtraction wraps and is not checked for overflow. -/
def Obligations.AluSubtractionWraps : Prop :=
  (∀ p q, (((alu .sub p q).out.toNat : Int) = ((p.toNat : Int) - q.toNat) % 2 ^ 32) ∧
    (alu .sub p q).wb = (alu .sub p q).out) ∧
  (alu .sub 0x80000000#32 1#32).out = 0x7FFFFFFF#32 ∧ (alu .sub 0#32 1#32).out = 0xFFFFFFFF#32

/-- R123: and, or and nor act bit by bit; nor with zero is the complement. -/
def Obligations.AluBitwiseOperations : Prop :=
  (∀ (p q : Word) (i : Nat), i < 32 →
    (alu .and p q).out.getLsbD i = (p.getLsbD i && q.getLsbD i) ∧
    (alu .or p q).out.getLsbD i = (p.getLsbD i || q.getLsbD i) ∧
    (alu .nor p q).out.getLsbD i = !(p.getLsbD i || q.getLsbD i)) ∧
  (∀ p q, (alu .and p q).wb = (alu .and p q).out ∧ (alu .or p q).wb = (alu .or p q).out ∧
    (alu .nor p q).wb = (alu .nor p q).out) ∧
  ∀ p, (alu .nor p 0#32).out = ~~~p

/-- R124, R125: the reported output is the wrapped difference and the boolean is the exact signed or unsigned comparison
[spec's decision D11]. -/
def Obligations.AluSetLessThanComparesExactly : Prop :=
  ∀ p q : Word,
    (((alu .slt p q).out.toNat : Int) = ((p.toNat : Int) - q.toNat) % 2 ^ 32) ∧
    (alu .sltu p q).out = (alu .slt p q).out ∧
    (alu .slt p q).wb = (if p.toInt < q.toInt then 0x00000001#32 else 0x00000000#32) ∧
    (alu .sltu p q).wb = (if p.toNat < q.toNat then 0x00000001#32 else 0x00000000#32)

/-- R126: the low 5 bits of the second operand shift the first one as an unsigned value, zeros filling in; only `sll` and
`srl` shift, and always by their literal. -/
def Obligations.AluShiftsAreLogical : Prop :=
  (∀ p q : Word,
    (alu .sll p q).out.toNat = p.toNat * 2 ^ (q.toNat % 32) % 2 ^ 32 ∧ (alu .sll p q).wb = (alu .sll p q).out ∧
    (alu .srl p q).out.toNat = p.toNat / 2 ^ (q.toNat % 32) ∧ (alu .srl p q).wb = (alu .srl p q).out ∧
    (q.toNat % 32 = 0 → (alu .sll p q).out = p ∧ (alu .srl p q).out = p)) ∧
  (∀ op : Op, aluFnOf op = some .sll ∨ aluFnOf op = some .srl → op.family = .shift) ∧
  ∀ (r : Record) (a b : Option Word) (o : Operands), r.op.family = .shift → recordOperands r a b = some o → o.q = r.imm

/-- R80: `andi` and `ori` zero-extend the low 16 bits of the record's immediate and the other four sign-extend them; the
six meanings, `exec` of the instruction of such a record, and the record's cycle all use that operand; the word level's decoder
keeps the raw field. -/
def Obligations.ImmediatesAreExtendedByOperation : Prop :=
  (∀ (imm : Word) (i : Nat), i < 32 →
    (∀ op ∈ [Op.andi, .ori], (extendFor op imm).getLsbD i = (decide (i < 16) && imm.getLsbD i)) ∧
    (∀ op ∈ [Op.addi, .addiu, .slti, .sltiu],
      (extendFor op imm).getLsbD i = if i < 16 then imm.getLsbD i else imm.getLsbD 15)) ∧
  (∀ (r : Record) (a b : Option Word) (o : Operands), r.op.family = .itype → recordOperands r a b = some o →
    o.q = extendFor r.op r.imm) ∧
  (∀ k w, (decodeRecord k w).op.family = .itype → (decodeRecord k w).imm = zext16 (imm16Of w)) ∧
  ∀ (rt rs : Reg) (imm : Word) (s : State),
    exec (.addi rt rs (low16 imm)) s = .next (s.writeBack rt (alu .add (s.reg rs) (extendFor .addi imm)).wb) ∧
    exec (.addiu rt rs (low16 imm)) s = .next (s.writeBack rt (alu .add (s.reg rs) (extendFor .addiu imm)).wb) ∧
    exec (.slti rt rs (low16 imm)) s = .next (s.writeBack rt (alu .slt (s.reg rs) (extendFor .slti imm)).wb) ∧
    exec (.sltiu rt rs (low16 imm)) s = .next (s.writeBack rt (alu .sltu (s.reg rs) (extendFor .sltiu imm)).wb) ∧
    exec (.andi rt rs (low16 imm)) s = .next (s.writeBack rt (alu .and (s.reg rs) (extendFor .andi imm)).wb) ∧
    exec (.ori rt rs (low16 imm)) s = .next (s.writeBack rt (alu .or (s.reg rs) (extendFor .ori imm)).wb)

/-! ## What each instruction does: its result, its completion and its frame -/

/-- R140 to R148: each RTYPE instruction writes its result to `rd`, advances the PC by 4 and changes nothing else; with `rd`
register 0 the result is discarded. Signed and unsigned comparison as in the [spec's decision D11]. -/
def Obligations.RTypeInstructionsWriteRd : Prop :=
  ∀ rd rs rt : Reg,
    WritesRegister (.add rd rs rt) rd (fun s => BitVec.ofNat 32 ((s.reg rs).toNat + (s.reg rt).toNat)) ∧
    WritesRegister (.addu rd rs rt) rd (fun s => BitVec.ofNat 32 ((s.reg rs).toNat + (s.reg rt).toNat)) ∧
    WritesRegister (.sub rd rs rt) rd (fun s => BitVec.ofInt 32 ((s.reg rs).toInt - (s.reg rt).toInt)) ∧
    WritesRegister (.and rd rs rt) rd (fun s => s.reg rs &&& s.reg rt) ∧
    WritesRegister (.or rd rs rt) rd (fun s => s.reg rs ||| s.reg rt) ∧
    WritesRegister (.nor rd rs rt) rd (fun s => ~~~(s.reg rs ||| s.reg rt)) ∧
    WritesRegister (.slt rd rs rt) rd
      (fun s => if (s.reg rs).toInt < (s.reg rt).toInt then 0x00000001#32 else 0x00000000#32) ∧
    WritesRegister (.sltu rd rs rt) rd
      (fun s => if (s.reg rs).toNat < (s.reg rt).toNat then 0x00000001#32 else 0x00000000#32)

/-- R150, R151, R153: `sll`, unless it is the halt pattern, and `srl` write the shifted `x[rt]` to `rd`, advance the PC by 4
and change nothing else. Only the low 5 bits of the literal count (R127). -/
def Obligations.ShiftInstructionsWriteRd : Prop :=
  ∀ (rd rt : Reg) (imm : Word),
    (¬ (rd = 0#5 ∧ rt = 0#5 ∧ imm = 0#32) →
      WritesRegister (.sll rd rt imm) rd (fun s => BitVec.ofNat 32 ((s.reg rt).toNat * 2 ^ (imm.toNat % 32)))) ∧
    WritesRegister (.srl rd rt imm) rd (fun s => BitVec.ofNat 32 ((s.reg rt).toNat / 2 ^ (imm.toNat % 32)))

/-- R131, R152: the halt sentinel, as its own constructor or spelled as the all-zero `sll` [log 6], ends the run as `Halted`
with the PC one past it; no register and no cell changes. -/
def Obligations.HaltSentinelHalts : Prop :=
  ∀ s : State, exec (.sll 0#5 0#5 0#32) s = exec .halt s ∧
    ∃ t, exec .halt s = .next t ∧ t.runState = .halted ∧ t.pc = s.pc + 4#32 ∧ t.cycleCount = s.cycleCount ∧
      SameRegs s t ∧ SameMemory s t ∧ SameParameters s t

/-- R152: a step that fetches the all-zero word is counted, halts the run, reports the SHIFT vector and an ALU output of 0,
and no later step changes anything [spec's decisions D8, D17]. -/
def Obligations.HaltWordEndsTheRun : Prop :=
  ∀ s : State, s.runState = .running → s.entry = some (.word 0x00000000#32) →
    ∃ t, step s = .next t ∧ t.runState = .halted ∧ t.cycleCount = s.cycleCount + 1 ∧
      (s.pc.toNat % 4 = 0 → t.pc.toNat = (4 * s.index.toNat + 4) % 2 ^ 32) ∧
      SameRegs s t ∧ SameMemory s t ∧ SameParameters s t ∧ (∀ n, Sys2Proof.core.run n t = .next t) ∧
      ∃ m, s.monitor = some m ∧ m.ctrl = ctrl .shift ∧ m.ctrl.regWrite = true ∧ m.aluOut = some 0x00000000#32

/-- R160 to R166: each ITYPE instruction writes its result to `rt`, advances the PC by 4 and changes nothing else; `rt`
register 0 discards the result. Comparisons as in the [spec's decision D11]. -/
def Obligations.ITypeInstructionsWriteRt : Prop :=
  ∀ (rt rs : Reg) (v : Imm16),
    WritesRegister (.addi rt rs v) rt (fun s => BitVec.ofInt 32 ((s.reg rs).toInt + v.toInt)) ∧
    WritesRegister (.addiu rt rs v) rt (fun s => BitVec.ofInt 32 ((s.reg rs).toInt + v.toInt)) ∧
    WritesRegister (.andi rt rs v) rt (fun s => s.reg rs &&& BitVec.ofNat 32 v.toNat) ∧
    WritesRegister (.ori rt rs v) rt (fun s => s.reg rs ||| BitVec.ofNat 32 v.toNat) ∧
    WritesRegister (.slti rt rs v) rt
      (fun s => if (s.reg rs).toInt < v.toInt then 0x00000001#32 else 0x00000000#32) ∧
    WritesRegister (.sltiu rt rs v) rt
      (fun s => if (s.reg rs).toNat < (BitVec.ofInt 32 v.toInt).toNat then 0x00000001#32 else 0x00000000#32)

/-- R170, R172: `lw` writes the cell at base plus offset, modulo `2^32` and with no alignment, to `rt`; it stores nothing. -/
def Obligations.LoadWordReadsOneCell : Prop :=
  ∀ (rt rs : Reg) (imm : Word),
    WritesRegister (.lw rt rs imm) rt (fun s => s.memRead (BitVec.ofNat 32 ((s.reg rs).toNat + imm.toNat)))

/-- R171, R172: `sw` stores `x[rt]` in the one cell at base plus offset, whose address joins the stored-address set; every
other cell and every register is unchanged. -/
def Obligations.StoreWordWritesOneCell : Prop :=
  ∀ (rt rs : Reg) (imm : Word) (s : State) (a : Word), effectiveAddress rs imm s = a →
    a.toNat = ((s.reg rs).toNat + imm.toNat) % 2 ^ 32 ∧
    ∃ t, exec (.sw rt rs imm) s = .next t ∧ t.memRead a = s.reg rt ∧ t.isStored a = true ∧
      SameMemoryBut a s t ∧ SameRegs s t ∧ t.pc = s.pc + 4#32 ∧ SameRun s t ∧ SameParameters s t

/-- R180, R181: a branch whose condition holds and whose target resolves to index `x` sets the PC to `4 * x`; one whose
condition fails advances the PC by 4, whatever its target; nothing else changes. -/
def Obligations.BranchesSetThePc : Prop :=
  ∀ (rs rt : Reg) (target : Target) (s : State),
    (s.reg rs = s.reg rt →
      (∀ x, s.resolve target = some x → SetsOnlyPc (.beq rs rt target) s (BitVec.ofNat 32 (4 * x.toNat))) ∧
      SetsOnlyPc (.bne rs rt target) s (s.pc + 4#32)) ∧
    (s.reg rs ≠ s.reg rt →
      (∀ x, s.resolve target = some x → SetsOnlyPc (.bne rs rt target) s (BitVec.ofNat 32 (4 * x.toNat))) ∧
      SetsOnlyPc (.beq rs rt target) s (s.pc + 4#32))

/-- R182: a jump whose target resolves to index `x` sets the PC to `4 * x`; nothing else changes. -/
def Obligations.JumpSetsThePc : Prop :=
  ∀ (target : Target) (s : State) (x : Index), s.resolve target = some x →
    SetsOnlyPc (.j target) s (BitVec.ofNat 32 (4 * x.toNat))

/-- R183: a jump, and a branch whose condition holds, with a label that is not in the table stops the run with `LabelError`
and changes nothing else [spec's decision D22 for the branch not taken, `BranchesSetThePc`]. -/
def Obligations.UnresolvedLabelStopsTheRun : Prop :=
  ∀ (target : Target) (s : State), s.resolve target = none →
    StopsWithLabelError (.j target) s ∧
    ∀ rs rt, (s.reg rs = s.reg rt → StopsWithLabelError (.beq rs rt target) s) ∧
      (s.reg rs ≠ s.reg rt → StopsWithLabelError (.bne rs rt target) s)

/-- R33, R12: a label name resolves to the index the table gives it, and to none when the table does not have it; of two
entries with one name the first counts, the model's choice [log 13], which is the last clause. -/
def Obligations.LabelsResolveThroughTheTable : Prop :=
  ∀ (s : State) (name : String),
    (s.resolve (.label name) = none ↔ ∀ x, (name, x) ∉ s.labels) ∧
    (∀ x, s.resolve (.label name) = some x → (name, x) ∈ s.labels) ∧
    (∀ x, (s.labels.map Prod.fst).Nodup → (name, x) ∈ s.labels → s.resolve (.label name) = some x) ∧
    (∀ x earlier later, s.labels = earlier ++ (name, x) :: later → (∀ y, (name, y) ∉ earlier) →
      s.resolve (.label name) = some x)

/-- R114: `j`, `beq` and `bne` leave the cycle at step 5: no ALU operation, no memory access, no register write, never the
halt; the comparison is equality of the two register values. -/
def Obligations.ControlFlowLeavesTheCycleAtStepFive : Prop :=
  (∀ (i : Instr) (s : State), i.family = .beq ∨ i.family = .bne ∨ i.family = .jump →
    ∃ t, exec i s = .next t ∧ SameRegs s t ∧ SameMemory s t ∧
      (t.runState = s.runState ∨ t.runState = .labelError) ∧ aluFnOf i.op = none) ∧
  (∀ (r : Record) (a b : Option Word), r.op.family = .beq ∨ r.op.family = .bne ∨ r.op.family = .jump →
    recordAlu r a b = none ∧ isHaltRecord r = false) ∧
  ∀ a b : Word, branchEqual a b = true ↔ a = b

/-! ## The step -/

/-- A step runs the decoded instruction: when the entry at the PC is a word that decodes to `i`, `step` is `exec` of `i` in
the same state with the cycle counted (R76, R110). -/
def Obligations.StepRunsTheDecodedWord : Prop :=
  ∀ (s : State) (w : Word) (i : Instr), s.runState = .running →
    s.program[s.index.toNat]? = some (.word w) → decode s.index w = .instr i →
    step s = exec i { s with cycleCount := s.cycleCount + 1 }

/-- The same at the record level: the record's used slots make the instruction (R73, R110). -/
def Obligations.StepRunsTheRecord : Prop :=
  ∀ (s : State) (r : Record) (i : Instr), s.runState = .running →
    s.program[s.index.toNat]? = some (.record r) → r.classify = .instr i →
    step s = exec i { s with cycleCount := s.cycleCount + 1 }

/-- R111: the fetch reads entry `PC / 4`; past the end it stops the run as `Exhausted` and changes nothing else and emits no
record; otherwise the cycle is counted. -/
def Obligations.FetchReadsTheEntryOrStops : Prop :=
  ∀ s : State, s.runState = .running →
    s.index.toNat = s.pc.toNat / 4 ∧
    (s.program.length ≤ s.pc.toNat / 4 →
      s.monitor = none ∧
      ∃ t, step s = .next t ∧ t.runState = .exhausted ∧ t.pc = s.pc ∧ t.cycleCount = s.cycleCount ∧
        SameRegs s t ∧ SameMemory s t ∧ SameParameters s t) ∧
    (∀ h : s.pc.toNat / 4 < s.program.length,
      s.entry = some s.program[s.pc.toNat / 4] ∧ ∀ t, step s = .next t → t.cycleCount = s.cycleCount + 1)

/-- R113, R204: a word no row of the opcode map covers, and a record whose `op` is `UNSUPPORTED`, is passed over: the PC
advances by 4, the cycle is counted and flagged, the run goes on [spec's decisions D3, D6]. -/
def Obligations.UnsupportedInstructionIsPassedOver : Prop :=
  ∀ s : State, s.runState = .running →
    ((∃ w, s.entry = some (.word w) ∧ ∀ row ∈ opcodeRows, row.covers w = false) ∨
      ∃ r, s.entry = some (.record r) ∧ r.op = .unsupported) →
    ∃ t, step s = .next t ∧ t.pc = s.pc + 4#32 ∧ t.cycleCount = s.cycleCount + 1 ∧ t.runState = .running ∧
      SameRegs s t ∧ SameMemory s t ∧ SameParameters s t ∧
      ∃ m, s.monitor = some m ∧ m.unsupported = true ∧ m.ctrl = ControlVector.none ∧ m.aluOut = none

/-- R206: in a terminal state no number of steps changes anything, and no record is emitted [spec's decision D16]. -/
def Obligations.TerminalStateIsFinal : Prop :=
  ∀ (s : State) (n : Nat), s.runState ≠ .running → Sys2Proof.core.run n s = .next s ∧ s.monitor = none

/-- A step stops the model exactly when the fetched entry is a record that lacks a slot its family uses [log 8], and no step
is refused. -/
def Obligations.StepStopsOnlyAtAnAbsentSlot : Prop :=
  ∀ s : State,
    (step s = .fault .slotAbsent ↔
      s.runState = .running ∧ ∃ r, s.entry = some (.record r) ∧ r.slotsPresent = false) ∧
    ∀ ρ, step s ≠ .refused ρ

/-- R112: a cycle that ends in `LabelError` has changed no register, no cell and not the PC, one that ends in `Halted` only
the PC, by 4, and each is counted; the only other stop happens before an instruction exists. -/
def Obligations.CycleIsAllOrNothing : Prop :=
  ∀ s t : State, s.runState = .running → step s = .next t →
    (t.runState = .labelError →
      SameRegs s t ∧ SameMemory s t ∧ t.pc = s.pc ∧ t.cycleCount = s.cycleCount + 1) ∧
    (t.runState = .halted →
      SameRegs s t ∧ SameMemory s t ∧ t.pc = s.pc + 4#32 ∧ t.cycleCount = s.cycleCount + 1) ∧
    (t.runState = .exhausted → s.fetch = .pastEnd ∧ t.cycleCount = s.cycleCount)

/-- R25: the PC after a step, by what the step did [spec's decisions D9, D10 for the arithmetic modulo `2^32`]. -/
def Obligations.PcAfterAStep : Prop :=
  ∀ s t : State, s.runState = .running → step s = .next t →
    (s.fetch = .pastEnd → t.pc = s.pc) ∧
    (s.fetch = .unsupported → t.pc = s.pc + 4#32) ∧
    (∀ i, s.fetch = .instr i → targetOf i = none → t.pc = s.pc + 4#32) ∧
    (∀ target, s.fetch = .instr (.j target) →
      (∀ x, s.resolve target = some x → t.pc.toNat = 4 * x.toNat) ∧ (s.resolve target = none → t.pc = s.pc)) ∧
    (∀ rs rt target, s.fetch = .instr (.beq rs rt target) →
      (s.reg rs ≠ s.reg rt → t.pc = s.pc + 4#32) ∧
      (s.reg rs = s.reg rt →
        (∀ x, s.resolve target = some x → t.pc.toNat = 4 * x.toNat) ∧ (s.resolve target = none → t.pc = s.pc))) ∧
    (∀ rs rt target, s.fetch = .instr (.bne rs rt target) →
      (s.reg rs = s.reg rt → t.pc = s.pc + 4#32) ∧
      (s.reg rs ≠ s.reg rt →
        (∀ x, s.resolve target = some x → t.pc.toNat = 4 * x.toNat) ∧ (s.resolve target = none → t.pc = s.pc)))

/-- R27: a step counts a cycle exactly when it fetches an instruction [spec's decision D13]. -/
def Obligations.CycleCounterCountsFetchedCycles : Prop :=
  ∀ s t : State, step s = .next t →
    t.cycleCount = s.cycleCount + if s.runState = .running ∧ s.pc.toNat / 4 < s.program.length then 1 else 0

/-- R60: no store, whatever its address, changes what a later fetch returns, and no run changes the program. -/
def Obligations.StoresNeverChangeTheProgram : Prop :=
  (∀ (s : State) (a v : Word), (s.memWrite a v).fetch = s.fetch) ∧
  ∀ (s t : State) (n : Nat), Sys2Proof.core.run n s = .next t → t.program = s.program ∧ t.labels = s.labels

/-- R86: no run of a word-level program reaches `LabelError`. -/
def Obligations.WordProgramsNeverReachLabelError : Prop :=
  ∀ (s t : State) (n : Nat), s.wordLevel → s.runState ≠ .labelError → Sys2Proof.core.run n s = .next t →
    t.runState ≠ .labelError

/-- R110: for every state whose records have the slots their families use, `step` is the ten-step cycle of the spec, over the
record at the PC and the control vector of its family. -/
def Obligations.StepIsTheTenStepCycle : Prop := ∀ s : State, s.slotsPresent → step s = cycle s

/-! ## Encoding -/

/-- R94: the word the encoder gives a well-formed instruction at index `k` decodes at `k` to that instruction, whatever its
operands [spec's decisions D2 to D5]. -/
def Obligations.DecodeOfEncodeIsTheInstruction : Prop :=
  ∀ (k : Index) (i : Instr) (w : Word), i.wellFormed = true → encode k i = some w → decode k w = .instr i

/-- R82, R84, R85, R94: which well-formed instructions have a word: all but an offset that is no sign extension of 16 bits, a
label that is not resolved, and a target out of the field's reach. -/
def Obligations.EncodableInstructions : Prop :=
  ∀ (k : Index) (i : Instr), i.wellFormed = true →
    ((∃ w, encode k i = some w) ↔
      match i with
      | .lw _ _ imm | .sw _ _ imm => -32768 ≤ imm.toInt ∧ imm.toInt ≤ 32767
      | .beq _ _ target | .bne _ _ target =>
        ∃ t, target = .resolved t ∧ -32768 ≤ (t.toNat : Int) - (k.toNat + 1) ∧ (t.toNat : Int) - (k.toNat + 1) ≤ 32767
      | .j target => ∃ t, target = .resolved t ∧ t.toNat / 2 ^ 26 = (k.toNat + 1) % 2 ^ 30 / 2 ^ 26
      | _ => True)

/-- R89, R90: two words that decode at one index to the same instruction are the same word: no bit of a word is dropped
[spec's decision D3]. -/
def Obligations.DecodeDropsNoBit : Prop :=
  ∀ (k : Index) (w w' : Word) (i : Instr), decode k w = .instr i → decode k w' = .instr i → w = w'

/-- R74: whatever the decoder reads is a well-formed instruction, and its record is one the core is specified for. -/
def Obligations.DecodedInstructionsAreWellFormed : Prop :=
  ∀ (k : Index) (w : Word),
    (∀ i, decode k w = .instr i → i.wellFormed = true) ∧ (decodeRecord k w).wellFormed = true

/-- R88, R90: at most one row of the opcode map covers a word; the decoder reads an instruction of that row's operation; with
no row it answers `UNSUPPORTED` [spec's decisions D2, D3]. -/
def Obligations.DecoderFollowsTheOpcodeMap : Prop :=
  ∀ (k : Index) (w : Word),
    (∀ row ∈ opcodeRows, ∀ row' ∈ opcodeRows, row.covers w = true → row'.covers w = true → row = row') ∧
    (∀ row ∈ opcodeRows, row.covers w = true → ∃ i, decode k w = .instr i ∧ i.op = row.op) ∧
    ((∀ row ∈ opcodeRows, row.covers w = false) → ∃ why, decode k w = .unsupported why)

/-- R89: the decoder and the spec's own decoding into a record read the same instruction from every word. -/
def Obligations.RecordOfAWordIsItsInstruction : Prop :=
  ∀ (k : Index) (w : Word),
    (∀ i, decode k w = .instr i → (decodeRecord k w).classify = .instr i ∧ (decodeRecord k w).op = i.op) ∧
    (∀ why, decode k w = .unsupported why → (decodeRecord k w).op = .unsupported)

/-- R94: at index `k`, in every state, running the word of an instruction whose label the table resolves changes the state
exactly as running the instruction with its label does [spec's decisions D2, D4]. -/
def Obligations.WordLevelAgreesWithRecordLevel : Prop :=
  ∀ (k : Index) (i : Instr) (s : State) (x : Index) (w : Word) (i' : Instr), i.wellFormed = true →
    (∀ target, targetOf i = some target → s.resolve target = some x) →
    encode k (resolvedAt x i) = some w → decode k w = .instr i' → exec i' s = exec i s

/-- R73, R94 to R99: what the assembler makes of a source text is well formed, one entry for each instruction line; where it
also has words, the word at an index and the record at that index change the state in the same way, whatever the state, given
the text's own label table [spec's decisions D2, D4, D18; log 18 for the tokens]. -/
def Obligations.AssembledProgramsRunAlikeAtBothLevels : Prop :=
  ∀ (lines : List SourceLine) (program : List Entry) (labels : List (String × Index)),
    assembleProgram lines = .ok (program, labels) →
    program.length = (lines.filter fun line => line.body.isSome).length ∧
    (∀ e ∈ program, ∃ r, e = .record r ∧ r.wellFormed = true) ∧
    ∀ words, assembleWordProgram lines = .ok words → words.length = program.length ∧
      ∀ (k : Index) (w : Word) (r : Record) (s : State), words[k.toNat]? = some (.word w) →
        program[k.toNat]? = some (.record r) → s.labels = labels →
        ∃ i i', r.classify = .instr i ∧ decode k w = .instr i' ∧ exec i' s = exec i s

/-- The decoder on words written out from the spec's own encodings (a check of chosen words; 95_test_vectors.md 2.1). -/
def Obligations.DecodeOfTheSpecsWords : Prop :=
  decode 5#30 0x01095020#32 = .instr (.add 10#5 8#5 9#5) ∧
  decode 0#30 0x000947C0#32 = .instr (.sll 8#5 9#5 31#32) ∧
  decode 0#30 0x2D28FFFF#32 = .instr (.sltiu 8#5 9#5 0xFFFF#16) ∧
  decode 0#30 0x8FA8FFFC#32 = .instr (.lw 8#5 29#5 0xFFFFFFFC#32) ∧
  decode 10#30 0x1509FFFD#32 = .instr (.bne 8#5 9#5 (.resolved 8#30)) ∧
  decode 67108863#30 0x08000000#32 = .instr (.j (.resolved 67108864#30)) ∧
  decode 0#30 0x01095060#32 = .unsupported .shamtNotZero ∧
  decode 0#30 0x01204000#32 = .unsupported .rsNotZero

/-- R21, R97: every register has its own name, and no other name is accepted. -/
def Obligations.RegisterNamesAreDistinct : Prop :=
  (∀ r : Reg, Reg.ofName r.name = some r) ∧ ∀ (name : String) (r : Reg), Reg.ofName name = some r → name = r.name

/-! ## Control vector, monitor record, summary, ports -/

/-- R115: the control vector of every family, in the order of the table's columns; its five blank cells are 0 (R117) [spec's
decision D7]. -/
def Obligations.ControlVectorTable : Prop :=
  ctrl .rtype = ⟨true, false, false, false, false, 2#2, false, false, true⟩ ∧
  ctrl .shift = ⟨false, false, false, false, false, 2#2, false, true, true⟩ ∧
  ctrl .itype = ⟨false, false, false, false, false, 0#2, false, true, true⟩ ∧
  ctrl .load = ⟨false, false, false, true, true, 0#2, false, true, true⟩ ∧
  ctrl .store = ⟨false, false, false, false, false, 0#2, true, true, false⟩ ∧
  ctrl .beq = ⟨false, false, true, false, false, 1#2, false, false, false⟩ ∧
  ctrl .bne = ⟨false, false, true, false, false, 1#2, false, false, false⟩ ∧
  ctrl .jump = ⟨false, true, false, false, false, 0#2, false, false, false⟩ ∧
  ctrl .unsupported = ⟨false, false, false, false, false, 0#2, false, false, false⟩

/-- R116: the vector says what an instruction changes: no register without `regWrite` and then only its destination, no cell
without `memWrite` and then only the one at the effective address of the `sw`, the PC other than by 4 only with `jump` or
`branch`. -/
def Obligations.ControlVectorSaysWhatChanges : Prop :=
  ∀ (i : Instr) (s t : State), exec i s = .next t →
    ((ctrl i.family).regWrite = false → SameRegs s t) ∧
    ((ctrl i.family).memWrite = false → SameMemory s t) ∧
    ((ctrl i.family).jump = false → (ctrl i.family).branch = false → t.pc = s.pc + 4#32) ∧
    (∀ r, destinationOf i ≠ some r → t.reg r = s.reg r) ∧
    ((ctrl i.family).memWrite = true → ∃ rt rs imm, i = .sw rt rs imm ∧
      t.isStored (effectiveAddress rs imm s) = true ∧ t.memRead (effectiveAddress rs imm s) = s.reg rt ∧
      SameMemoryBut (effectiveAddress rs imm s) s t)

/-- R190, R27: a monitor record is emitted exactly by the steps that count a cycle, and carries that cycle's number and the PC
before it [spec's decision D13]. -/
def Obligations.OneMonitorRecordPerCountedCycle : Prop :=
  ∀ s t : State, step s = .next t →
    ((∃ m, s.monitor = some m) ↔ t.cycleCount = s.cycleCount + 1) ∧
    ∀ m, s.monitor = some m → m.cycle = t.cycleCount ∧ m.pcBefore = s.pc

/-- R192: the operand slots of the record, by family. -/
def Obligations.MonitorOperandSlots : Prop :=
  ∀ (s : State) (r : Record) (m : MonitorRecord), s.fetchRecord = some r → s.monitor = some m →
    (m.reg1, m.reg2, m.reg3) =
      match r.op.family with
      | .rtype => (r.rs, r.rt, r.rd)
      | .shift => (r.rt, none, r.rd)
      | .itype => (r.rs, none, r.rt)
      | .load => (r.rs, none, r.rt)
      | .store => (r.rs, none, r.rt)
      | .beq => (r.rs, r.rt, none)
      | .bne => (r.rs, r.rt, none)
      | .jump => (none, none, none)
      | .unsupported => (none, none, none)

/-- R194: the reported operand values are those after the cycle; a slot naming register 0 shows 0; after a halt or a
`LabelError` they are those before it. -/
def Obligations.MonitorValuesAreThoseAfterTheCycle : Prop :=
  ∀ (s t : State) (m : MonitorRecord), step s = .next t → s.monitor = some m →
    (m.val1 = m.reg1.map t.reg ∧ m.val2 = m.reg2.map t.reg ∧ m.val3 = m.reg3.map t.reg) ∧
    (m.reg1 = some 0#5 → m.val1 = some 0x00000000#32) ∧
    (m.reg2 = some 0#5 → m.val2 = some 0x00000000#32) ∧
    (m.reg3 = some 0#5 → m.val3 = some 0x00000000#32) ∧
    (t.runState = .halted ∨ t.runState = .labelError →
      m.val1 = m.reg1.map s.reg ∧ m.val2 = m.reg2.map s.reg ∧ m.val3 = m.reg3.map s.reg)

/-- R190, R193, R195: what the record reports of the cycle of each instruction beside its operand slots: the ALU output (the
raw difference for the four set-less-than instructions, the effective address for `lw` and `sw`, 0 for the halt, nothing for
control flow), the memory fields (`lw` and `sw` only), the label (`beq` and `bne` only, taken or not), the control vector of the
family, the text, the flag; and of an `UNSUPPORTED` instruction [spec's decisions D6, D26]. -/
def Obligations.MonitorReportsTheAluOutput : Prop :=
  ∀ (s : State) (m : MonitorRecord), s.monitor = some m →
    (∀ r, s.fetchRecord = some r → m.text = r.text) ∧
    (s.fetch = .unsupported → m.aluOut = none ∧ m.memAddr = none ∧ m.stored = none ∧ m.loaded = none ∧ m.label = none ∧
      m.ctrl = ctrl .unsupported ∧ m.unsupported = true) ∧
    ∀ i, s.fetch = .instr i →
      m.aluOut = (match i with
        | .add _ rs rt | .addu _ rs rt => some (s.reg rs + s.reg rt)
        | .sub _ rs rt | .slt _ rs rt | .sltu _ rs rt => some (s.reg rs - s.reg rt)
        | .and _ rs rt => some (s.reg rs &&& s.reg rt)
        | .or _ rs rt => some (s.reg rs ||| s.reg rt)
        | .nor _ rs rt => some (~~~(s.reg rs ||| s.reg rt))
        | .sll _ rt imm => some (s.reg rt <<< (imm.toNat % 32))
        | .srl _ rt imm => some (s.reg rt >>> (imm.toNat % 32))
        | .halt => some 0x00000000#32
        | .addi _ rs v | .addiu _ rs v => some (s.reg rs + v.signExtend 32)
        | .slti _ rs v | .sltiu _ rs v => some (s.reg rs - v.signExtend 32)
        | .andi _ rs v => some (s.reg rs &&& v.setWidth 32)
        | .ori _ rs v => some (s.reg rs ||| v.setWidth 32)
        | .lw _ rs imm | .sw _ rs imm => some (s.reg rs + imm)
        | .beq .. | .bne .. | .j .. => none) ∧
      m.memAddr = (match i with
        | .lw _ rs imm | .sw _ rs imm => some (effectiveAddress rs imm s)
        | _ => none) ∧
      m.stored = (match i with
        | .sw rt _ _ => some (s.reg rt)
        | _ => none) ∧
      m.loaded = (match i with
        | .lw _ rs imm => some (s.memRead (effectiveAddress rs imm s))
        | _ => none) ∧
      m.label = (match i with
        | .beq _ _ target | .bne _ _ target => some target
        | _ => none) ∧
      m.ctrl = ctrl i.family ∧ m.unsupported = false

/-- R196: the final summary is there in every terminal state and in no other; it lists exactly the stored addresses with their
cells, strictly ascending and each once [spec's decision D19]. -/
def Obligations.SummaryListsTheStoredCells : Prop :=
  ∀ s : State, s.Inv →
    (s.summary = none ↔ s.runState = .running) ∧
    ∀ m, s.summary = some m →
      m.finalPc = s.pc ∧ m.cycles = s.cycleCount ∧ m.stop = s.runState ∧
      m.regs.length = 32 ∧ (∀ r : Reg, m.regs[r.toNat]? = some (s.reg r)) ∧ m.regs[0]? = some 0x00000000#32 ∧
      m.memory.Pairwise (fun c d => c.1 < d.1) ∧
      (∀ c ∈ m.memory, c.1 < 2 ^ 32) ∧
      ∀ (a v : Word), (a.toNat, v) ∈ m.memory ↔ s.isStored a = true ∧ s.memRead a = v

/-- R8, R26, R230: the data ports carry a read exactly in a cycle that executes `lw` and a write exactly in one that executes
`sw`, at the effective address, `dmem_rdata` being the cell there and `dmem_wdata` the value of `rt`; in any other cycle, and on an
edge with `rst = 1`, they carry nothing; the other ports follow the state [spec's decisions D14, D15; log 15 for the idle
ports]. -/
def Obligations.PortsFollowTheCycle : Prop :=
  ∀ s : State, s.slotsPresent →
    (∀ rst, (s.ports rst).imemAddr = s.pc ∧
      ((s.ports rst).imemValid = true ↔ s.pc.toNat / 4 < s.program.length) ∧
      (∀ h : s.pc.toNat / 4 < s.program.length, (s.ports rst).imemData = some s.program[s.pc.toNat / 4]) ∧
      (s.ports rst).runState = (match s.runState with
        | .running => 0#2
        | .halted => 1#2
        | .exhausted => 2#2
        | .labelError => 3#2) ∧
      (s.ports rst).cycleCount = s.cycleCount) ∧
    ((s.ports false).dmemWe = true ↔ s.runState = .running ∧ ∃ rt rs imm, s.fetch = .instr (.sw rt rs imm)) ∧
    ((s.ports false).dmemRe = true ↔ s.runState = .running ∧ ∃ rt rs imm, s.fetch = .instr (.lw rt rs imm)) ∧
    (s.runState = .running → ∀ rt rs imm, s.fetch = .instr (.sw rt rs imm) →
      (s.ports false).dmemAddr = some (effectiveAddress rs imm s) ∧ (s.ports false).dmemWdata = some (s.reg rt) ∧
      (s.ports false).dmemRdata = some (s.memRead (effectiveAddress rs imm s))) ∧
    (s.runState = .running → ∀ rt rs imm, s.fetch = .instr (.lw rt rs imm) →
      (s.ports false).dmemAddr = some (effectiveAddress rs imm s) ∧ (s.ports false).dmemWdata = none ∧
      (s.ports false).dmemRdata = some (s.memRead (effectiveAddress rs imm s))) ∧
    ((s.ports false).dmemWe = false → (s.ports false).dmemRe = false →
      (s.ports false).dmemAddr = none ∧ (s.ports false).dmemRdata = none ∧ (s.ports false).dmemWdata = none) ∧
    (s.ports false).monitor = s.monitor ∧
    ((s.ports true).dmemWe = false ∧ (s.ports true).dmemRe = false ∧ (s.ports true).dmemAddr = none ∧
      (s.ports true).dmemRdata = none ∧ (s.ports true).dmemWdata = none ∧ (s.ports true).monitor = none)
end

