-- ==== Sys2Proof/Laws/State.lean ====
section
/-! SUPPORT. One lemma per field of the state per update, so that no proof unfolds a record update. -/

namespace Sys2Proof.Machine

/-! ## setReg -/

@[simp] theorem State.setReg_zero (s : State) (v : Word) : s.setReg 0#5 v = s := if_pos rfl

@[simp] theorem State.setReg_pc (s : State) (r : Reg) (v : Word) : (s.setReg r v).pc = s.pc := by
  unfold State.setReg; split <;> rfl
@[simp] theorem State.setReg_mem (s : State) (r : Reg) (v : Word) : (s.setReg r v).mem = s.mem := by
  unfold State.setReg; split <;> rfl
@[simp] theorem State.setReg_runState (s : State) (r : Reg) (v : Word) : (s.setReg r v).runState = s.runState := by
  unfold State.setReg; split <;> rfl
@[simp] theorem State.setReg_cycleCount (s : State) (r : Reg) (v : Word) :
    (s.setReg r v).cycleCount = s.cycleCount := by
  unfold State.setReg; split <;> rfl
@[simp] theorem State.setReg_program (s : State) (r : Reg) (v : Word) : (s.setReg r v).program = s.program := by
  unfold State.setReg; split <;> rfl
@[simp] theorem State.setReg_labels (s : State) (r : Reg) (v : Word) : (s.setReg r v).labels = s.labels := by
  unfold State.setReg; split <;> rfl

/-! ## memWrite -/

@[simp] theorem State.memWrite_regs (s : State) (a v : Word) : (s.memWrite a v).regs = s.regs := rfl
@[simp] theorem State.memWrite_pc (s : State) (a v : Word) : (s.memWrite a v).pc = s.pc := rfl
@[simp] theorem State.memWrite_mem (s : State) (a v : Word) : (s.memWrite a v).mem = s.mem.write a v := rfl
@[simp] theorem State.memWrite_runState (s : State) (a v : Word) : (s.memWrite a v).runState = s.runState := rfl
@[simp] theorem State.memWrite_cycleCount (s : State) (a v : Word) : (s.memWrite a v).cycleCount = s.cycleCount := rfl
@[simp] theorem State.memWrite_program (s : State) (a v : Word) : (s.memWrite a v).program = s.program := rfl
@[simp] theorem State.memWrite_labels (s : State) (a v : Word) : (s.memWrite a v).labels = s.labels := rfl

/-! ## advancePc -/

@[simp] theorem State.advancePc_regs (s : State) : s.advancePc.regs = s.regs := rfl
@[simp] theorem State.advancePc_pc (s : State) : s.advancePc.pc = s.pc + 4#32 := rfl
@[simp] theorem State.advancePc_mem (s : State) : s.advancePc.mem = s.mem := rfl
@[simp] theorem State.advancePc_runState (s : State) : s.advancePc.runState = s.runState := rfl
@[simp] theorem State.advancePc_cycleCount (s : State) : s.advancePc.cycleCount = s.cycleCount := rfl
@[simp] theorem State.advancePc_program (s : State) : s.advancePc.program = s.program := rfl
@[simp] theorem State.advancePc_labels (s : State) : s.advancePc.labels = s.labels := rfl

/-! ## jumpTo -/

@[simp] theorem State.jumpTo_regs (s : State) (t : Index) : (s.jumpTo t).regs = s.regs := rfl
@[simp] theorem State.jumpTo_pc (s : State) (t : Index) : (s.jumpTo t).pc = pcOfIndex t := rfl
@[simp] theorem State.jumpTo_mem (s : State) (t : Index) : (s.jumpTo t).mem = s.mem := rfl
@[simp] theorem State.jumpTo_runState (s : State) (t : Index) : (s.jumpTo t).runState = s.runState := rfl
@[simp] theorem State.jumpTo_cycleCount (s : State) (t : Index) : (s.jumpTo t).cycleCount = s.cycleCount := rfl
@[simp] theorem State.jumpTo_program (s : State) (t : Index) : (s.jumpTo t).program = s.program := rfl
@[simp] theorem State.jumpTo_labels (s : State) (t : Index) : (s.jumpTo t).labels = s.labels := rfl

/-! ## countCycle -/

@[simp] theorem State.countCycle_regs (s : State) : s.countCycle.regs = s.regs := rfl
@[simp] theorem State.countCycle_pc (s : State) : s.countCycle.pc = s.pc := rfl
@[simp] theorem State.countCycle_mem (s : State) : s.countCycle.mem = s.mem := rfl
@[simp] theorem State.countCycle_runState (s : State) : s.countCycle.runState = s.runState := rfl
@[simp] theorem State.countCycle_cycleCount (s : State) : s.countCycle.cycleCount = s.cycleCount + 1 := rfl
@[simp] theorem State.countCycle_program (s : State) : s.countCycle.program = s.program := rfl
@[simp] theorem State.countCycle_labels (s : State) : s.countCycle.labels = s.labels := rfl

/-! ## raiseStop -/

@[simp] theorem State.raiseStop_regs (s : State) (x : RunState) : (s.raiseStop x).regs = s.regs := rfl
@[simp] theorem State.raiseStop_pc (s : State) (x : RunState) : (s.raiseStop x).pc = s.pc := rfl
@[simp] theorem State.raiseStop_mem (s : State) (x : RunState) : (s.raiseStop x).mem = s.mem := rfl
@[simp] theorem State.raiseStop_runState (s : State) (x : RunState) : (s.raiseStop x).runState = x := rfl
@[simp] theorem State.raiseStop_cycleCount (s : State) (x : RunState) : (s.raiseStop x).cycleCount = s.cycleCount := rfl
@[simp] theorem State.raiseStop_program (s : State) (x : RunState) : (s.raiseStop x).program = s.program := rfl
@[simp] theorem State.raiseStop_labels (s : State) (x : RunState) : (s.raiseStop x).labels = s.labels := rfl

/-! ## haltNow -/

@[simp] theorem State.haltNow_regs (s : State) : s.haltNow.regs = s.regs := rfl
@[simp] theorem State.haltNow_pc (s : State) : s.haltNow.pc = s.pc + 4#32 := rfl
@[simp] theorem State.haltNow_mem (s : State) : s.haltNow.mem = s.mem := rfl
@[simp] theorem State.haltNow_runState (s : State) : s.haltNow.runState = .halted := rfl
@[simp] theorem State.haltNow_cycleCount (s : State) : s.haltNow.cycleCount = s.cycleCount := rfl
@[simp] theorem State.haltNow_program (s : State) : s.haltNow.program = s.program := rfl
@[simp] theorem State.haltNow_labels (s : State) : s.haltNow.labels = s.labels := rfl

/-! ## writeBack -/

@[simp] theorem State.writeBack_regs (s : State) (d : Reg) (v : Word) : (s.writeBack d v).regs = (s.setReg d v).regs := rfl
@[simp] theorem State.writeBack_pc (s : State) (d : Reg) (v : Word) : (s.writeBack d v).pc = s.pc + 4#32 := by
  simp [State.writeBack]
@[simp] theorem State.writeBack_mem (s : State) (d : Reg) (v : Word) : (s.writeBack d v).mem = s.mem := by
  simp [State.writeBack]
@[simp] theorem State.writeBack_runState (s : State) (d : Reg) (v : Word) : (s.writeBack d v).runState = s.runState := by
  simp [State.writeBack]
@[simp] theorem State.writeBack_cycleCount (s : State) (d : Reg) (v : Word) :
    (s.writeBack d v).cycleCount = s.cycleCount := by
  simp [State.writeBack]
@[simp] theorem State.writeBack_program (s : State) (d : Reg) (v : Word) : (s.writeBack d v).program = s.program := by
  simp [State.writeBack]
@[simp] theorem State.writeBack_labels (s : State) (d : Reg) (v : Word) : (s.writeBack d v).labels = s.labels := by
  simp [State.writeBack]

/-! ## resetEdge -/

@[simp] theorem State.resetEdge_regs (s : State) : s.resetEdge.regs = resetRegs := rfl
@[simp] theorem State.resetEdge_pc (s : State) : s.resetEdge.pc = Config.pcReset := rfl
@[simp] theorem State.resetEdge_mem (s : State) : s.resetEdge.mem = ⟨[]⟩ := rfl
@[simp] theorem State.resetEdge_runState (s : State) : s.resetEdge.runState = .running := rfl
@[simp] theorem State.resetEdge_cycleCount (s : State) : s.resetEdge.cycleCount = 0 := rfl
@[simp] theorem State.resetEdge_program (s : State) : s.resetEdge.program = s.program := rfl
@[simp] theorem State.resetEdge_labels (s : State) : s.resetEdge.labels = s.labels := rfl

end Sys2Proof.Machine
end

