-- ==== Sys2Proof/Laws/Registers.lean ====
section
/-! SUPPORT. The laws of the general registers: a read after a write, and reads through the other updates. -/

namespace Sys2Proof.Machine

@[simp] theorem State.reg_zero (s : State) : s.reg 0#5 = 0#32 := if_pos rfl

/-- Reads depend on the register file alone. -/
theorem State.reg_of_regs_eq {s t : State} (h : t.regs = s.regs) (r : Reg) : t.reg r = s.reg r := by
  unfold State.reg; rw [h]

/-- A register after a write: the written one holds the new value unless it is register 0. -/
theorem State.reg_setReg (s : State) (d r : Reg) (v : Word) :
    (s.setReg d v).reg r = if r = d ∧ d ≠ 0#5 then v else s.reg r := by
  by_cases hd : d = 0#5
  · simp [hd]
  · by_cases hr : r = d
    · subst hr; simp [State.reg, State.setReg, hd]
    · have : d.toNat ≠ r.toNat := fun e => hr (BitVec.eq_of_toNat_eq e.symm)
      simp [State.reg, State.setReg, hd, hr, this]

/-- A write back, register by register. -/
theorem State.reg_writeBack (s : State) (d r : Reg) (v : Word) :
    (s.writeBack d v).reg r = if r = d ∧ d ≠ 0#5 then v else s.reg r := State.reg_setReg s d r v

@[simp] theorem State.reg_memWrite (s : State) (a v : Word) (r : Reg) : (s.memWrite a v).reg r = s.reg r := rfl
@[simp] theorem State.reg_advancePc (s : State) (r : Reg) : s.advancePc.reg r = s.reg r := rfl
@[simp] theorem State.reg_jumpTo (s : State) (t : Index) (r : Reg) : (s.jumpTo t).reg r = s.reg r := rfl
@[simp] theorem State.reg_countCycle (s : State) (r : Reg) : s.countCycle.reg r = s.reg r := rfl
@[simp] theorem State.reg_raiseStop (s : State) (x : RunState) (r : Reg) : (s.raiseStop x).reg r = s.reg r := rfl
@[simp] theorem State.reg_haltNow (s : State) (r : Reg) : s.haltNow.reg r = s.reg r := rfl

/-- The unread slot of register 0 is never written. -/
theorem State.setReg_slotZero (s : State) (d : Reg) (v : Word) : (s.setReg d v).regs[0] = s.regs[0] := by
  unfold State.setReg
  split
  · rfl
  · rename_i h
    have : d.toNat ≠ 0 := fun e => h (BitVec.eq_of_toNat_eq e)
    simp [this]

end Sys2Proof.Machine
end

