-- ==== Sys2Proof/Laws/Alu.lean ====
section
/-! SUPPORT. The ALU function by function, and the operand forms. -/

namespace Sys2Proof.Machine

@[simp] theorem alu_add (p q : Word) : alu .add p q = ⟨p + q, p + q⟩ := rfl
@[simp] theorem alu_sub (p q : Word) : alu .sub p q = ⟨p - q, p - q⟩ := rfl
@[simp] theorem alu_and (p q : Word) : alu .and p q = ⟨p &&& q, p &&& q⟩ := rfl
@[simp] theorem alu_or (p q : Word) : alu .or p q = ⟨p ||| q, p ||| q⟩ := rfl
@[simp] theorem alu_nor (p q : Word) : alu .nor p q = ⟨~~~(p ||| q), ~~~(p ||| q)⟩ := rfl
@[simp] theorem alu_slt (p q : Word) : alu .slt p q = ⟨p - q, boolWord (lessSigned p q)⟩ := rfl
@[simp] theorem alu_sltu (p q : Word) : alu .sltu p q = ⟨p - q, boolWord (lessUnsigned p q)⟩ := rfl
@[simp] theorem alu_sll (p q : Word) : alu .sll p q = ⟨p <<< shiftAmount q, p <<< shiftAmount q⟩ := rfl
@[simp] theorem alu_srl (p q : Word) : alu .srl p q = ⟨p >>> shiftAmount q, p >>> shiftAmount q⟩ := rfl

/-- The shift amount is the literal modulo 32. -/
theorem shiftAmount_eq_mod (q : Word) : shiftAmount q = q.toNat % 32 := by
  simp [shiftAmount, BitVec.extractLsb'_toNat]

theorem shiftAmount_lt (q : Word) : shiftAmount q < 32 := by
  rw [shiftAmount_eq_mod]; exact Nat.mod_lt _ (by decide)

/-- The effective address is the wrapped sum of base and offset. -/
theorem effectiveAddress_eq (rs : Reg) (imm : Word) (s : State) : effectiveAddress rs imm s = s.reg rs + imm := rfl

@[simp] theorem effectiveAddress_countCycle (rs : Reg) (imm : Word) (s : State) :
    effectiveAddress rs imm s.countCycle = effectiveAddress rs imm s := rfl

theorem branchEqual_iff (a b : Word) : branchEqual a b = true ↔ a = b := decide_eq_true_iff

theorem boolWord_eq (b : Bool) : boolWord b = if b then 1#32 else 0#32 := rfl

end Sys2Proof.Machine
end

