-- ==== Sys2Proof/Laws/Decode.lean ====
section
/-! SUPPORT. The fields of a word as arithmetic on its value, the words the three formats build, and the rows of the opcode
map as conditions on fields. -/

namespace Sys2Proof

/-- A concatenation as arithmetic. -/
theorem toNat_append_add {m n : Nat} (x : BitVec m) (y : BitVec n) : (x ++ y).toNat = x.toNat * 2 ^ n + y.toNat := by
  rw [BitVec.toNat_append, ← Nat.shiftLeft_add_eq_or_of_lt y.isLt, Nat.shiftLeft_eq]

/-! ## Fields -/

theorem opcodeOf_toNat (w : Word) : (opcodeOf w).toNat = w.toNat / 2 ^ 26 % 2 ^ 6 := by
  simp [opcodeOf, BitVec.extractLsb'_toNat, Nat.shiftRight_eq_div_pow]
theorem rsOf_toNat (w : Word) : (rsOf w).toNat = w.toNat / 2 ^ 21 % 2 ^ 5 := by
  simp [rsOf, BitVec.extractLsb'_toNat, Nat.shiftRight_eq_div_pow]
theorem rtOf_toNat (w : Word) : (rtOf w).toNat = w.toNat / 2 ^ 16 % 2 ^ 5 := by
  simp [rtOf, BitVec.extractLsb'_toNat, Nat.shiftRight_eq_div_pow]
theorem rdOf_toNat (w : Word) : (rdOf w).toNat = w.toNat / 2 ^ 11 % 2 ^ 5 := by
  simp [rdOf, BitVec.extractLsb'_toNat, Nat.shiftRight_eq_div_pow]
theorem shamtOf_toNat (w : Word) : (shamtOf w).toNat = w.toNat / 2 ^ 6 % 2 ^ 5 := by
  simp [shamtOf, BitVec.extractLsb'_toNat, Nat.shiftRight_eq_div_pow]
theorem functOf_toNat (w : Word) : (functOf w).toNat = w.toNat % 2 ^ 6 := by
  simp [functOf, BitVec.extractLsb'_toNat]
theorem imm16Of_toNat (w : Word) : (imm16Of w).toNat = w.toNat % 2 ^ 16 := by
  simp [imm16Of, BitVec.extractLsb'_toNat]
theorem index26Of_toNat (w : Word) : (index26Of w).toNat = w.toNat % 2 ^ 26 := by
  simp [index26Of, BitVec.extractLsb'_toNat]

/-! ## Formats -/

theorem rWord_toNat (rs rt rd shamt : BitVec 5) (funct : BitVec 6) :
    (rWord rs rt rd shamt funct).toNat =
      (((rs.toNat * 32 + rt.toNat) * 32 + rd.toNat) * 32 + shamt.toNat) * 64 + funct.toNat := by
  have h1 : (rWord rs rt rd shamt funct).toNat = _ := toNat_append_add (0#6 ++ rs ++ rt ++ rd ++ shamt) funct
  have h2 := toNat_append_add (0#6 ++ rs ++ rt ++ rd) shamt
  have h3 := toNat_append_add (0#6 ++ rs ++ rt) rd
  have h4 := toNat_append_add (0#6 ++ rs) rt
  have h5 := toNat_append_add 0#6 rs
  rw [h1, h2, h3, h4, h5]
  simp

theorem iWord_toNat (opcode : BitVec 6) (rs rt : Reg) (imm16 : Imm16) :
    (iWord opcode rs rt imm16).toNat = ((opcode.toNat * 32 + rs.toNat) * 32 + rt.toNat) * 65536 + imm16.toNat := by
  have h1 : (iWord opcode rs rt imm16).toNat = _ := toNat_append_add (opcode ++ rs ++ rt) imm16
  have h2 := toNat_append_add (opcode ++ rs) rt
  have h3 := toNat_append_add opcode rs
  rw [h1, h2, h3]
  norm_num

theorem jWord_toNat (index26 : BitVec 26) : (jWord index26).toNat = 2 * 2 ^ 26 + index26.toNat :=
  toNat_append_add 0x02#6 index26

section RFormat
variable (rs rt rd shamt : BitVec 5) (funct : BitVec 6)

@[simp] theorem opcodeOf_rWord : opcodeOf (rWord rs rt rd shamt funct) = 0#6 := by
  apply BitVec.eq_of_toNat_eq; rw [opcodeOf_toNat, rWord_toNat]; simp; omega
@[simp] theorem rsOf_rWord : rsOf (rWord rs rt rd shamt funct) = rs := by
  apply BitVec.eq_of_toNat_eq; rw [rsOf_toNat, rWord_toNat]; omega
@[simp] theorem rtOf_rWord : rtOf (rWord rs rt rd shamt funct) = rt := by
  apply BitVec.eq_of_toNat_eq; rw [rtOf_toNat, rWord_toNat]; omega
@[simp] theorem rdOf_rWord : rdOf (rWord rs rt rd shamt funct) = rd := by
  apply BitVec.eq_of_toNat_eq; rw [rdOf_toNat, rWord_toNat]; omega
@[simp] theorem shamtOf_rWord : shamtOf (rWord rs rt rd shamt funct) = shamt := by
  apply BitVec.eq_of_toNat_eq; rw [shamtOf_toNat, rWord_toNat]; omega
@[simp] theorem functOf_rWord : functOf (rWord rs rt rd shamt funct) = funct := by
  apply BitVec.eq_of_toNat_eq; rw [functOf_toNat, rWord_toNat]; omega

end RFormat

section IFormat
variable (opcode : BitVec 6) (rs rt : Reg) (imm16 : Imm16)

@[simp] theorem opcodeOf_iWord : opcodeOf (iWord opcode rs rt imm16) = opcode := by
  apply BitVec.eq_of_toNat_eq; rw [opcodeOf_toNat, iWord_toNat]; omega
@[simp] theorem rsOf_iWord : rsOf (iWord opcode rs rt imm16) = rs := by
  apply BitVec.eq_of_toNat_eq; rw [rsOf_toNat, iWord_toNat]; omega
@[simp] theorem rtOf_iWord : rtOf (iWord opcode rs rt imm16) = rt := by
  apply BitVec.eq_of_toNat_eq; rw [rtOf_toNat, iWord_toNat]; omega
@[simp] theorem imm16Of_iWord : imm16Of (iWord opcode rs rt imm16) = imm16 := by
  apply BitVec.eq_of_toNat_eq; rw [imm16Of_toNat, iWord_toNat]; omega

end IFormat

@[simp] theorem opcodeOf_jWord (x : BitVec 26) : opcodeOf (jWord x) = 0x02#6 := by
  apply BitVec.eq_of_toNat_eq; rw [opcodeOf_toNat, jWord_toNat]; simp; omega
@[simp] theorem index26Of_jWord (x : BitVec 26) : index26Of (jWord x) = x := by
  apply BitVec.eq_of_toNat_eq; rw [index26Of_toNat, jWord_toNat]; omega

/-- A word of opcode 0 is the R format of its fields. -/
theorem rWord_of_fields {w : Word} (h : opcodeOf w = 0#6) :
    rWord (rsOf w) (rtOf w) (rdOf w) (shamtOf w) (functOf w) = w := by
  have h := congrArg BitVec.toNat h
  apply BitVec.eq_of_toNat_eq
  rw [opcodeOf_toNat] at h
  rw [rWord_toNat, rsOf_toNat, rtOf_toNat, rdOf_toNat, shamtOf_toNat, functOf_toNat]
  simp at h
  omega

/-- Every word is the I format of its fields. -/
theorem iWord_of_fields (w : Word) : iWord (opcodeOf w) (rsOf w) (rtOf w) (imm16Of w) = w := by
  apply BitVec.eq_of_toNat_eq
  rw [iWord_toNat, opcodeOf_toNat, rsOf_toNat, rtOf_toNat, imm16Of_toNat]
  omega

/-- A word of opcode 2 is the J format of its field. -/
theorem jWord_of_fields {w : Word} (h : opcodeOf w = 0x02#6) : jWord (index26Of w) = w := by
  have h := congrArg BitVec.toNat h
  apply BitVec.eq_of_toNat_eq
  rw [opcodeOf_toNat] at h
  rw [jWord_toNat, index26Of_toNat]
  simp at h
  omega

/-! ## Extensions -/

@[simp] theorem low16_zext16 (v : Imm16) : low16 (zext16 v) = v := by
  apply BitVec.eq_of_toNat_eq; simp [low16, zext16]

@[simp] theorem low16_sext16 (v : Imm16) : low16 (sext16 v) = v := by
  apply BitVec.eq_of_getLsbD_eq
  intro i hi
  rw [low16, sext16, BitVec.getLsbD_setWidth, BitVec.getLsbD_signExtend]
  simp [hi, show i < 32 by omega]

theorem sext16_inj {u v : Imm16} (h : sext16 u = sext16 v) : u = v := by
  rw [← low16_sext16 u, h, low16_sext16]

@[simp] theorem zext5_toNat (v : BitVec 5) : (zext5 v).toNat = v.toNat := by
  simp [zext5, BitVec.toNat_setWidth]; omega

@[simp] theorem setWidth_zext5 (v : BitVec 5) : (zext5 v).setWidth 5 = v := by
  apply BitVec.eq_of_toNat_eq; simp [zext5]

theorem zext5_setWidth {imm : Word} (h : shiftAmountOk imm = true) : zext5 (imm.setWidth 5) = imm := by
  apply BitVec.eq_of_toNat_eq
  simp only [shiftAmountOk, decide_eq_true_eq] at h
  simp [zext5]; omega

theorem shiftAmountOk_zext5 (v : BitVec 5) : shiftAmountOk (zext5 v) = true := by
  simp [shiftAmountOk]; omega

theorem isHaltPattern_iff {rd rt : Reg} {imm : Word} :
    isHaltPattern rd rt imm = true ↔ rd = 0#5 ∧ rt = 0#5 ∧ imm = 0#32 := by
  simp [isHaltPattern, and_assoc]

/-! ## Targets -/

/-- The index field of a jump rebuilds a target in the region of the next instruction. -/
theorem jumpIndex_of_region {k t : Index} (h : t.extractLsb' 26 4 = (k + 1#30).extractLsb' 26 4) :
    jumpIndex k (t.setWidth 26) = t := by
  unfold jumpIndex
  rw [← h]
  apply BitVec.eq_of_toNat_eq
  rw [toNat_append_add, BitVec.extractLsb'_toNat, BitVec.toNat_setWidth, Nat.shiftRight_eq_div_pow]
  omega

theorem jumpIndex_inj {k : Index} {x y : BitVec 26} (h : jumpIndex k x = jumpIndex k y) : x = y := by
  have h := congrArg BitVec.toNat h
  rw [jumpIndex, jumpIndex, toNat_append_add, toNat_append_add] at h
  exact BitVec.eq_of_toNat_eq (Nat.add_left_cancel h)

/-- The offset field of a branch rebuilds a target within its reach. -/
theorem branchIndex_of_offset {k t : Index} (lo : -32768 ≤ (t.toNat : Int) - (k.toNat + 1))
    (hi : (t.toNat : Int) - (k.toNat + 1) ≤ 32767) :
    branchIndex k (BitVec.ofInt 16 ((t.toNat : Int) - (k.toNat + 1))) = t := by
  have hs : (BitVec.ofInt 16 ((t.toNat : Int) - (k.toNat + 1))).signExtend 30 =
      BitVec.ofInt 30 ((t.toNat : Int) - (k.toNat + 1)) := by
    rw [BitVec.signExtend, BitVec.toInt_ofInt, Int.bmod_eq_of_le (by omega) (by omega)]
  rw [branchIndex, hs]
  apply BitVec.eq_of_toNat_eq
  have := t.isLt
  have := k.isLt
  simp only [BitVec.toNat_add, BitVec.toNat_ofInt, BitVec.toNat_ofNat]
  omega

theorem branchIndex_inj {k : Index} {u v : Imm16} (h : branchIndex k u = branchIndex k v) : u = v := by
  have h : u.signExtend 30 = v.signExtend 30 := add_left_cancel h
  apply BitVec.eq_of_getLsbD_eq
  intro i hi
  have h := congrArg (fun x => BitVec.getLsbD x i) h
  simp only [BitVec.getLsbD_signExtend] at h
  simpa [hi, show i < 30 by omega] using h

/-! ## Masks of the opcode map -/

theorem and_opcodeMask (w : Word) : w &&& 0xFC000000#32 = opcodeOf w ++ 0#26 := by
  apply BitVec.eq_of_getLsbD_eq
  intro i hi
  simp only [opcodeOf, BitVec.getLsbD_and, BitVec.getLsbD_append, BitVec.getLsbD_extractLsb']
  interval_cases i <;> simp

theorem and_rtypeMask (w : Word) : w &&& 0xFC0007FF#32 = opcodeOf w ++ 0#15 ++ shamtOf w ++ functOf w := by
  apply BitVec.eq_of_getLsbD_eq
  intro i hi
  simp only [opcodeOf, shamtOf, functOf, BitVec.getLsbD_and, BitVec.getLsbD_append, BitVec.getLsbD_extractLsb']
  interval_cases i <;> simp

theorem and_shiftMask (w : Word) : w &&& 0xFFE0003F#32 = opcodeOf w ++ rsOf w ++ 0#15 ++ functOf w := by
  apply BitVec.eq_of_getLsbD_eq
  intro i hi
  simp only [opcodeOf, rsOf, functOf, BitVec.getLsbD_and, BitVec.getLsbD_append, BitVec.getLsbD_extractLsb']
  interval_cases i <;> simp

/-! ## Everything the decoder can answer -/

/-- What a word decodes to, with the fields that make it so. -/
inductive DecodeCase (k : Index) (w : Word) : Decoded → Prop where
  | add (opc : opcodeOf w = 0x00#6) (fn : functOf w = 0x20#6) (sh : shamtOf w = 0#5) :
    DecodeCase k w (.instr (.add (rdOf w) (rsOf w) (rtOf w)))
  | addu (opc : opcodeOf w = 0x00#6) (fn : functOf w = 0x21#6) (sh : shamtOf w = 0#5) :
    DecodeCase k w (.instr (.addu (rdOf w) (rsOf w) (rtOf w)))
  | sub (opc : opcodeOf w = 0x00#6) (fn : functOf w = 0x22#6) (sh : shamtOf w = 0#5) :
    DecodeCase k w (.instr (.sub (rdOf w) (rsOf w) (rtOf w)))
  | and (opc : opcodeOf w = 0x00#6) (fn : functOf w = 0x24#6) (sh : shamtOf w = 0#5) :
    DecodeCase k w (.instr (.and (rdOf w) (rsOf w) (rtOf w)))
  | or (opc : opcodeOf w = 0x00#6) (fn : functOf w = 0x25#6) (sh : shamtOf w = 0#5) :
    DecodeCase k w (.instr (.or (rdOf w) (rsOf w) (rtOf w)))
  | nor (opc : opcodeOf w = 0x00#6) (fn : functOf w = 0x27#6) (sh : shamtOf w = 0#5) :
    DecodeCase k w (.instr (.nor (rdOf w) (rsOf w) (rtOf w)))
  | slt (opc : opcodeOf w = 0x00#6) (fn : functOf w = 0x2A#6) (sh : shamtOf w = 0#5) :
    DecodeCase k w (.instr (.slt (rdOf w) (rsOf w) (rtOf w)))
  | sltu (opc : opcodeOf w = 0x00#6) (fn : functOf w = 0x2B#6) (sh : shamtOf w = 0#5) :
    DecodeCase k w (.instr (.sltu (rdOf w) (rsOf w) (rtOf w)))
  | sll (opc : opcodeOf w = 0x00#6) (fn : functOf w = 0x00#6) (rs : rsOf w = 0#5)
      (notHalt : isHaltPattern (rdOf w) (rtOf w) (zext5 (shamtOf w)) = false) :
    DecodeCase k w (.instr (.sll (rdOf w) (rtOf w) (zext5 (shamtOf w))))
  | halt (zero : w = 0x00000000#32) : DecodeCase k w (.instr .halt)
  | srl (opc : opcodeOf w = 0x00#6) (fn : functOf w = 0x02#6) (rs : rsOf w = 0#5) :
    DecodeCase k w (.instr (.srl (rdOf w) (rtOf w) (zext5 (shamtOf w))))
  | addi (opc : opcodeOf w = 0x08#6) : DecodeCase k w (.instr (.addi (rtOf w) (rsOf w) (imm16Of w)))
  | addiu (opc : opcodeOf w = 0x09#6) : DecodeCase k w (.instr (.addiu (rtOf w) (rsOf w) (imm16Of w)))
  | slti (opc : opcodeOf w = 0x0A#6) : DecodeCase k w (.instr (.slti (rtOf w) (rsOf w) (imm16Of w)))
  | sltiu (opc : opcodeOf w = 0x0B#6) : DecodeCase k w (.instr (.sltiu (rtOf w) (rsOf w) (imm16Of w)))
  | andi (opc : opcodeOf w = 0x0C#6) : DecodeCase k w (.instr (.andi (rtOf w) (rsOf w) (imm16Of w)))
  | ori (opc : opcodeOf w = 0x0D#6) : DecodeCase k w (.instr (.ori (rtOf w) (rsOf w) (imm16Of w)))
  | lw (opc : opcodeOf w = 0x23#6) : DecodeCase k w (.instr (.lw (rtOf w) (rsOf w) (sext16 (imm16Of w))))
  | sw (opc : opcodeOf w = 0x2B#6) : DecodeCase k w (.instr (.sw (rtOf w) (rsOf w) (sext16 (imm16Of w))))
  | beq (opc : opcodeOf w = 0x04#6) :
    DecodeCase k w (.instr (.beq (rsOf w) (rtOf w) (.resolved (branchIndex k (imm16Of w)))))
  | bne (opc : opcodeOf w = 0x05#6) :
    DecodeCase k w (.instr (.bne (rsOf w) (rtOf w) (.resolved (branchIndex k (imm16Of w)))))
  | j (opc : opcodeOf w = 0x02#6) : DecodeCase k w (.instr (.j (.resolved (jumpIndex k (index26Of w)))))
  | shamtNotZero (opc : opcodeOf w = 0x00#6) (fn : ∃ op, rtypeOp (functOf w) = some op) (sh : shamtOf w ≠ 0#5) :
    DecodeCase k w (.unsupported .shamtNotZero)
  | rsNotZero (opc : opcodeOf w = 0x00#6) (fn : ∃ op, shiftOp (functOf w) = some op) (rs : rsOf w ≠ 0#5) :
    DecodeCase k w (.unsupported .rsNotZero)
  | funct (opc : opcodeOf w = 0x00#6) (notRType : rtypeOp (functOf w) = none) (notShift : shiftOp (functOf w) = none) :
    DecodeCase k w (.unsupported .funct)
  | opcode (notSpecial : opcodeOf w ≠ 0x00#6) (notIType : itypeOp (opcodeOf w) = none) (notLw : opcodeOf w ≠ 0x23#6)
      (notSw : opcodeOf w ≠ 0x2B#6) (notBranch : branchOp (opcodeOf w) = none) (notJ : opcodeOf w ≠ 0x02#6) :
    DecodeCase k w (.unsupported .opcode)

/-- A property of a conditional, branch by branch. -/
theorem ite_of_cases {α : Type} {P : α → Prop} {c : Prop} [Decidable c] {a b : α} (ha : c → P a) (hb : ¬ c → P b) :
    P (if c then a else b) := by
  split
  · exact ha ‹_›
  · exact hb ‹_›

theorem decodeRType_case {k : Index} {w : Word} {make : Reg → Reg → Reg → Instr} (opc : opcodeOf w = 0x00#6)
    (fn : ∃ op, rtypeOp (functOf w) = some op)
    (h : shamtOf w = 0#5 → DecodeCase k w (.instr (make (rdOf w) (rsOf w) (rtOf w)))) :
    DecodeCase k w (decodeRType make w) :=
  ite_of_cases h fun sh => .shamtNotZero opc fn sh

theorem decodeShift_case {k : Index} {w : Word} {make : Reg → Reg → Word → Instr} (opc : opcodeOf w = 0x00#6)
    (fn : ∃ op, shiftOp (functOf w) = some op)
    (h : rsOf w = 0#5 → DecodeCase k w (.instr (make (rdOf w) (rtOf w) (zext5 (shamtOf w))))) :
    DecodeCase k w (decodeShift make w) :=
  ite_of_cases h fun rs => .rsNotZero opc fn rs

theorem decodeSll_case {k : Index} {w : Word} (opc : opcodeOf w = 0x00#6) (fn : functOf w = 0x00#6)
    (rs : rsOf w = 0#5) : DecodeCase k w (.instr (decodeSll (rdOf w) (rtOf w) (zext5 (shamtOf w)))) := by
  cases h : isHaltPattern (rdOf w) (rtOf w) (zext5 (shamtOf w)) with
  | false => rw [decodeSll, h]; exact .sll opc fn rs h
  | true =>
    rw [decodeSll, h]
    obtain ⟨hrd, hrt, hsh⟩ := isHaltPattern_iff.mp h
    have hsh : shamtOf w = 0#5 := by rw [← setWidth_zext5 (shamtOf w), hsh]; rfl
    refine .halt ?_
    rw [← rWord_of_fields opc, hrd, hrt, hsh, fn, rs]
    rfl

theorem decodeSpecial_case {k : Index} {w : Word} (opc : opcodeOf w = 0x00#6) : DecodeCase k w (decodeSpecial w) := by
  unfold decodeSpecial
  refine ite_of_cases (fun fn => decodeRType_case opc ⟨.add, by rw [fn]; rfl⟩ fun sh => .add opc fn sh) fun n1 => ?_
  refine ite_of_cases (fun fn => decodeRType_case opc ⟨.addu, by rw [fn]; rfl⟩ fun sh => .addu opc fn sh) fun n2 => ?_
  refine ite_of_cases (fun fn => decodeRType_case opc ⟨.sub, by rw [fn]; rfl⟩ fun sh => .sub opc fn sh) fun n3 => ?_
  refine ite_of_cases (fun fn => decodeRType_case opc ⟨.and, by rw [fn]; rfl⟩ fun sh => .and opc fn sh) fun n4 => ?_
  refine ite_of_cases (fun fn => decodeRType_case opc ⟨.or, by rw [fn]; rfl⟩ fun sh => .or opc fn sh) fun n5 => ?_
  refine ite_of_cases (fun fn => decodeRType_case opc ⟨.nor, by rw [fn]; rfl⟩ fun sh => .nor opc fn sh) fun n6 => ?_
  refine ite_of_cases (fun fn => decodeRType_case opc ⟨.slt, by rw [fn]; rfl⟩ fun sh => .slt opc fn sh) fun n7 => ?_
  refine ite_of_cases (fun fn => decodeRType_case opc ⟨.sltu, by rw [fn]; rfl⟩ fun sh => .sltu opc fn sh) fun n8 => ?_
  refine ite_of_cases (fun fn => decodeShift_case opc ⟨.sll, by rw [fn]; rfl⟩ fun rs => decodeSll_case opc fn rs) fun n9 => ?_
  refine ite_of_cases (fun fn => decodeShift_case opc ⟨.srl, by rw [fn]; rfl⟩ fun rs => .srl opc fn rs) fun n10 => ?_
  refine .funct opc ?_ ?_
  · simp only [rtypeOp, if_neg n1, if_neg n2, if_neg n3, if_neg n4, if_neg n5, if_neg n6, if_neg n7, if_neg n8]
  · simp only [shiftOp, if_neg n9, if_neg n10]

/-- The inversion of the decoder: every word is one of the cases. -/
theorem decode_cases (k : Index) (w : Word) : DecodeCase k w (decode k w) := by
  unfold decode
  refine ite_of_cases (fun opc => decodeSpecial_case opc) fun n0 => ?_
  refine ite_of_cases (fun opc => .addi opc) fun n1 => ?_
  refine ite_of_cases (fun opc => .addiu opc) fun n2 => ?_
  refine ite_of_cases (fun opc => .slti opc) fun n3 => ?_
  refine ite_of_cases (fun opc => .sltiu opc) fun n4 => ?_
  refine ite_of_cases (fun opc => .andi opc) fun n5 => ?_
  refine ite_of_cases (fun opc => .ori opc) fun n6 => ?_
  refine ite_of_cases (fun opc => .lw opc) fun n7 => ?_
  refine ite_of_cases (fun opc => .sw opc) fun n8 => ?_
  refine ite_of_cases (fun opc => .beq opc) fun n9 => ?_
  refine ite_of_cases (fun opc => .bne opc) fun n10 => ?_
  refine ite_of_cases (fun opc => .j opc) fun n11 => ?_
  refine .opcode n0 ?_ n7 n8 ?_ n11
  · simp only [itypeOp, if_neg n1, if_neg n2, if_neg n3, if_neg n4, if_neg n5, if_neg n6]
  · simp only [branchOp, if_neg n9, if_neg n10]

end Sys2Proof
end

