-- ==== Sys2Proof/Laws/Memory.lean ====
section
/-! SUPPORT. The laws of the data memory: a read after a write, and that a write keeps the canonical form. -/

namespace Sys2Proof.Machine

/-- A cell after `putCell`: the new value at its address, every other cell as before. -/
theorem cellAt_putCell (a b : Nat) (v : Word) (cells : List Cell) :
    cellAt b (putCell a v cells) = if a = b then some v else cellAt b cells := by
  induction cells with
  | nil => simp [putCell, cellAt]
  | cons c rest ih =>
    obtain ⟨x, u⟩ := c
    by_cases hlt : a < x
    · simp [putCell, hlt, cellAt]
    · by_cases heq : a = x
      · subst heq; simp only [putCell, lt_irrefl, if_false, if_true, cellAt]; split <;> simp_all
      · simp only [putCell, hlt, if_false, heq, cellAt, ih]
        by_cases hx : x = b <;> simp_all

/-- A larger lower bound is a stronger claim. -/
theorem cellsRiseFrom_mono {lo lo' : Nat} (h : lo' ≤ lo) :
    ∀ {cells : List Cell}, cellsRiseFrom lo cells = true → cellsRiseFrom lo' cells = true
  | [], _ => rfl
  | (a, _) :: rest, hc => by
    simp only [cellsRiseFrom, Bool.and_eq_true, decide_eq_true_eq] at hc ⊢
    exact ⟨⟨h.trans hc.1.1, hc.1.2⟩, hc.2⟩

/-- `putCell` keeps the cells rising. -/
theorem putCell_rises (a : Nat) (v : Word) (ha : a < 2 ^ 32) :
    ∀ {lo : Nat} {cells : List Cell}, lo ≤ a → cellsRiseFrom lo cells = true → cellsRiseFrom lo (putCell a v cells) = true
  | lo, [], hlo, _ => by simpa [putCell, cellsRiseFrom, hlo] using ha
  | lo, (b, u) :: rest, hlo, hc => by
    have hc' := hc
    simp only [cellsRiseFrom, Bool.and_eq_true, decide_eq_true_eq] at hc'
    obtain ⟨⟨_, hb⟩, hrest⟩ := hc'
    by_cases hlt : a < b
    · simp only [putCell, hlt, if_true, cellsRiseFrom, Bool.and_eq_true, decide_eq_true_eq]
      exact ⟨⟨hlo, ha⟩, ⟨hlt, hb⟩, hrest⟩
    · by_cases heq : a = b
      · subst heq
        simp only [putCell, lt_irrefl, if_false, if_true, cellsRiseFrom, Bool.and_eq_true, decide_eq_true_eq]
        exact ⟨⟨hlo, ha⟩, hrest⟩
      · simp only [putCell, hlt, if_false, heq, cellsRiseFrom, Bool.and_eq_true, decide_eq_true_eq]
        exact ⟨⟨by omega, hb⟩, putCell_rises a v ha (by omega) hrest⟩

/-- No cell below the lower bound is listed. -/
theorem cellAt_below {a : Nat} :
    ∀ {lo : Nat} {cells : List Cell}, a < lo → cellsRiseFrom lo cells = true → cellAt a cells = none
  | _, [], _, _ => rfl
  | lo, (b, u) :: rest, ha, hc => by
    simp only [cellsRiseFrom, Bool.and_eq_true, decide_eq_true_eq] at hc
    simp only [cellAt, if_neg (show b ≠ a by omega)]
    exact cellAt_below (by omega) hc.2

/-- The one operation that writes memory keeps the canonical form. -/
theorem Memory.write_wf {m : Memory} (a v : Word) (h : m.wf = true) : (m.write a v).wf = true :=
  putCell_rises a.toNat v a.isLt (Nat.zero_le _) h

/-- The empty memory is in canonical form. -/
theorem Memory.empty_wf : (Memory.mk []).wf = true := rfl

/-- The cells after a write. -/
theorem Memory.cell_write (m : Memory) (a b v : Word) :
    (m.write a v).cell b = if b = a then some v else m.cell b := by
  simp only [Memory.cell, Memory.write, cellAt_putCell]
  by_cases h : b = a
  · simp [h]
  · rw [if_neg h, if_neg fun e => h (BitVec.eq_of_toNat_eq e.symm)]

/-- What the cells read as after a write. -/
theorem Memory.read_write (m : Memory) (a b v : Word) :
    (m.write a v).read b = if b = a then v else m.read b := by
  simp only [Memory.read, Memory.cell_write]
  split <;> simp

/-- An address never stored to reads as 0. -/
theorem Memory.read_of_cell_none {m : Memory} {a : Word} (h : m.cell a = none) : m.read a = 0#32 := by
  simp [Memory.read, h, unstoredValue]

theorem State.memRead_memWrite (s : State) (a b v : Word) :
    (s.memWrite a v).memRead b = if b = a then v else s.memRead b := Memory.read_write ..

theorem State.isStored_memWrite (s : State) (a b v : Word) :
    (s.memWrite a v).isStored b = if b = a then true else s.isStored b := by
  simp only [State.isStored, State.memWrite_mem, Memory.cell_write]
  split <;> simp

/-- Two states with the same memory have the same cells and the same stored-address set. -/
theorem SameMemory.of_mem_eq {s t : State} (h : t.mem = s.mem) : SameMemory s t :=
  ⟨fun a => by simp [State.memRead, h], fun a => by simp [State.isStored, h]⟩

end Sys2Proof.Machine
end

