-- ==== Sys2Proof/Laws/Exec.lean ====
section
/-! SUPPORT. What the meaning of an instruction can do: once for each shared operation, and once for all of `exec`. -/

namespace Sys2Proof.Machine

/-- Everything a transfer can do: jump to the resolved index, or stop with `LabelError`. -/
theorem transfer_cases (target : Target) (s : State) :
    (∃ t, s.resolve target = some t ∧ transfer target s = s.jumpTo t) ∨
    (s.resolve target = none ∧ transfer target s = s.raiseStop .labelError) := by
  unfold transfer
  cases s.resolve target with
  | none => exact .inr ⟨rfl, rfl⟩
  | some t => exact .inl ⟨t, rfl, rfl⟩

theorem transfer_of_resolved {target : Target} {s : State} {t : Index} (h : s.resolve target = some t) :
    transfer target s = s.jumpTo t := by
  simp [transfer, h]

theorem transfer_of_unresolved {target : Target} {s : State} (h : s.resolve target = none) :
    transfer target s = s.raiseStop .labelError := by
  simp [transfer, h]

@[simp] theorem State.resolve_resolved (s : State) (t : Index) : s.resolve (.resolved t) = some t := rfl

@[simp] theorem State.resolve_countCycle (s : State) (target : Target) : s.countCycle.resolve target = s.resolve target := by
  cases target <;> rfl

/-- What a cycle's instruction does to the state it runs in. -/
inductive Effect (i : Instr) (s t : State) : Prop where
  /-- The instruction's destination is written back and the PC advances. -/
  | wrote (dest : Reg) (v : Word) (regWrite : (ctrl i.family).regWrite = true) (names : destinationOf i = some dest)
      (h : t = s.writeBack dest v)
  /-- The run halts. -/
  | halted (isSll : i.op = .sll) (h : t = s.haltNow)
  /-- A word is stored and the PC advances. -/
  | stored (rt rs : Reg) (imm : Word) (isSw : i = .sw rt rs imm)
      (h : t = (s.memWrite (effectiveAddress rs imm s) (s.reg rt)).advancePc)
  /-- A branch falls through. -/
  | fellThrough (branch : (ctrl i.family).branch = true) (h : t = s.advancePc)
  /-- A control transfer is taken. -/
  | jumped (target : Target) (x : Index) (names : targetOf i = some target) (resolves : s.resolve target = some x)
      (h : t = s.jumpTo x)
  /-- A control transfer finds its label unresolved. -/
  | labelError (target : Target) (names : targetOf i = some target) (fails : s.resolve target = none)
      (h : t = s.raiseStop .labelError)

theorem transfer_effect {i : Instr} {target : Target} (names : targetOf i = some target) (s : State) :
    Effect i s (transfer target s) := by
  obtain ⟨x, hx, h⟩ | ⟨hn, h⟩ := transfer_cases target s
  · exact .jumped target x names hx h
  · exact .labelError target names hn h

theorem branchIf_effect {i : Instr} {target : Target} (names : targetOf i = some target)
    (branch : (ctrl i.family).branch = true) (c : Bool) (s : State) : Effect i s (branchIf c target s) := by
  unfold branchIf
  split
  · exact transfer_effect names s
  · exact .fellThrough branch rfl

/-- `exec` answers a next state for every instruction, and that state is one of the effects. -/
theorem exec_effect (i : Instr) (s : State) : ∃ t, exec i s = .next t ∧ Effect i s t := by
  cases i with
  | add rd rs rt | addu rd rs rt | sub rd rs rt | and rd rs rt | or rd rs rt | nor rd rs rt | slt rd rs rt
  | sltu rd rs rt => exact ⟨_, rfl, .wrote _ _ rfl rfl rfl⟩
  | addi rt rs v | addiu rt rs v | slti rt rs v | sltiu rt rs v | andi rt rs v | ori rt rs v | srl rt rs v
  | lw rt rs v => exact ⟨_, rfl, .wrote _ _ rfl rfl rfl⟩
  | sll rd rt imm =>
    by_cases h : isHaltPattern rd rt imm = true
    · exact ⟨s.haltNow, by simp [exec, execSll, h], .halted rfl rfl⟩
    · exact ⟨_, by simp only [exec, execSll, h]; rfl, .wrote _ _ rfl rfl rfl⟩
  | halt => exact ⟨_, rfl, .halted rfl rfl⟩
  | sw rt rs imm => exact ⟨_, rfl, .stored rt rs imm rfl rfl⟩
  | beq rs rt target => exact ⟨_, rfl, branchIf_effect rfl rfl _ _⟩
  | bne rs rt target => exact ⟨_, rfl, branchIf_effect rfl rfl _ _⟩
  | j target => exact ⟨_, rfl, transfer_effect rfl _⟩

/-- The inversion of `exec`: a next state is one of the effects. -/
theorem exec_cases {i : Instr} {s t : State} (h : exec i s = .next t) : Effect i s t := by
  obtain ⟨t', h', he⟩ := exec_effect i s
  rw [h] at h'
  cases h'
  exact he

/-- The parameters of the run are the same after every instruction. -/
theorem Effect.program_eq {i : Instr} {s t : State} (h : Effect i s t) : t.program = s.program := by
  cases h <;> simp_all

theorem Effect.labels_eq {i : Instr} {s t : State} (h : Effect i s t) : t.labels = s.labels := by
  cases h <;> simp_all

theorem Effect.cycleCount_eq {i : Instr} {s t : State} (h : Effect i s t) : t.cycleCount = s.cycleCount := by
  cases h <;> simp_all

end Sys2Proof.Machine
end

