-- ==== Sys2Proof/Laws/Step.lean ====
section
/-! SUPPORT. What one step can do, and how a run unfolds. -/

namespace Sys2Proof.Machine

theorem step_of_not_running {s : State} (h : s.runState ≠ .running) : step s = .next s := by
  unfold step; split <;> simp_all

theorem step_of_pastEnd {s : State} (hr : s.runState = .running) (hf : s.fetch = .pastEnd) :
    step s = .next (s.raiseStop .exhausted) := by
  simp [step, hr, hf]

theorem step_of_instr {s : State} {i : Instr} (hr : s.runState = .running) (hf : s.fetch = .instr i) :
    step s = exec i s.countCycle := by
  simp [step, hr, hf]

theorem step_of_unsupported {s : State} (hr : s.runState = .running) (hf : s.fetch = .unsupported) :
    step s = .next s.countCycle.advancePc := by
  simp [step, hr, hf, execUnsupported]

theorem step_of_slotAbsent {s : State} (hr : s.runState = .running) (hf : s.fetch = .slotAbsent) :
    step s = .fault .slotAbsent := by
  simp [step, hr, hf]

/-- What a step that answers a next state has done. -/
inductive StepEffect (s t : State) : Prop where
  /-- The run had stopped. -/
  | stopped (notRunning : s.runState ≠ .running) (h : t = s)
  /-- The fetch found the end of the program. -/
  | exhausted (running : s.runState = .running) (fetch : s.fetch = .pastEnd) (h : t = s.raiseStop .exhausted)
  /-- An `UNSUPPORTED` instruction was counted and passed over. -/
  | passedOver (running : s.runState = .running) (fetch : s.fetch = .unsupported) (h : t = s.countCycle.advancePc)
  /-- An instruction was counted and run. -/
  | ran (i : Instr) (running : s.runState = .running) (fetch : s.fetch = .instr i) (effect : Effect i s.countCycle t)

/-- The inversion of `step`. -/
theorem step_cases {s t : State} (h : step s = .next t) : StepEffect s t := by
  by_cases hr : s.runState = .running
  · cases hf : s.fetch with
    | pastEnd => rw [step_of_pastEnd hr hf] at h; cases h; exact .exhausted hr hf rfl
    | instr i => rw [step_of_instr hr hf] at h; exact .ran i hr hf (exec_cases h)
    | unsupported => rw [step_of_unsupported hr hf] at h; cases h; exact .passedOver hr hf rfl
    | slotAbsent => rw [step_of_slotAbsent hr hf] at h; cases h
  · rw [step_of_not_running hr] at h; cases h; exact .stopped hr rfl

theorem StepEffect.program_eq {s t : State} (h : StepEffect s t) : t.program = s.program := by
  cases h with
  | stopped _ h => simp [h]
  | exhausted _ _ h => simp [h]
  | passedOver _ _ h => simp [h]
  | ran i _ _ e => simpa using e.program_eq

theorem StepEffect.labels_eq {s t : State} (h : StepEffect s t) : t.labels = s.labels := by
  cases h with
  | stopped _ h => simp [h]
  | exhausted _ _ h => simp [h]
  | passedOver _ _ h => simp [h]
  | ran i _ _ e => simpa using e.labels_eq

/-- A step that does not answer a next state has fetched a record without a slot its family uses. -/
theorem step_next_of_fetch {s : State} (h : s.fetch ≠ .slotAbsent) : ∃ t, step s = .next t := by
  by_cases hr : s.runState = .running
  · cases hf : s.fetch with
    | pastEnd => exact ⟨_, step_of_pastEnd hr hf⟩
    | instr i => obtain ⟨t, ht, _⟩ := exec_effect i s.countCycle; exact ⟨t, by rw [step_of_instr hr hf, ht]⟩
    | unsupported => exact ⟨_, step_of_unsupported hr hf⟩
    | slotAbsent => exact absurd hf h
  · exact ⟨s, step_of_not_running hr⟩

/-- A run of one step more begins with a step. -/
theorem run_succ_of_next {s u : State} (n : Nat) (h : step s = .next u) :
    Sys2Proof.core.run (n + 1) s = Sys2Proof.core.run n u := by
  simp only [Host.Core.run]
  have : Sys2Proof.core.step s = .next u := h
  rw [this]

/-- Every property that a step keeps holds after a run of any length. -/
theorem run_induction {P : State → Prop} (keep : ∀ s t, P s → step s = .next t → P t) :
    ∀ (n : Nat) {s t : State}, P s → Sys2Proof.core.run n s = .next t → P t
  | 0, s, t, hs, h => by
    cases (h : (Host.Outcome.next s : Host.Outcome State Fault Refusal) = .next t)
    exact hs
  | n + 1, s, t, hs, h => by
    cases hstep : step s with
    | next u => rw [run_succ_of_next n hstep] at h; exact run_induction keep n (keep s u hs hstep) h
    | fault f =>
      simp only [Host.Core.run] at h
      have : Sys2Proof.core.step s = .fault f := hstep
      simp [this] at h
    | refused f =>
      simp only [Host.Core.run] at h
      have : Sys2Proof.core.step s = .refused f := hstep
      simp [this] at h

/-- The entry that `placeEntry` puts in place is there. -/
theorem getElem?_placeEntry (program : List Entry) (k : Nat) (e : Entry) : (placeEntry program k e)[k]? = some e := by
  unfold placeEntry
  split
  · rename_i h; simp [h]
  · rename_i h
    rw [List.getElem?_append_right (Nat.le_of_not_lt h), List.getElem?_replicate, if_pos (by omega)]

/-- The word `withFetchWord` puts in place is the one the next step fetches. -/
theorem State.fetch_withFetchWord (s : State) (nbits w : Nat) :
    (s.withFetchWord nbits w).fetch = fetchedWord s.index (BitVec.ofNat 32 (w % 2 ^ nbits)) := by
  have h : (s.withFetchWord nbits w).entry = some (.word (BitVec.ofNat 32 (w % 2 ^ nbits))) :=
    getElem?_placeEntry s.program s.index.toNat _
  simp only [State.fetch, h]
  rfl

end Sys2Proof.Machine
end

