-- ==== Sys2Proof/Laws/Monitor.lean ====
section
/-! SUPPORT. When a cycle has a monitor record and which one, and the ports read from it. -/

namespace Sys2Proof.Machine

/-- A running machine that has fetched the record `r` and takes a step emits the record of that cycle. -/
theorem State.monitor_of_step {s t : State} {r : Record} (hr : s.runState = .running) (hf : s.fetchRecord = some r)
    (h : step s = .next t) : s.monitor = some (recordOfCycle r s t) := by
  simp [State.monitor, hr, hf, h]

/-- The inversion of `State.monitor`: where there is a monitor record, it is that of a cycle. -/
theorem State.monitor_cases {s : State} {m : MonitorRecord} (h : s.monitor = some m) :
    ∃ r t, s.runState = .running ∧ s.fetchRecord = some r ∧ step s = .next t ∧ m = recordOfCycle r s t := by
  unfold State.monitor at h
  split at h
  · cases h
    exact ⟨_, _, ‹_›, ‹_›, ‹_›, rfl⟩
  · cases h

@[simp] theorem State.monitorPort_false (s : State) : s.monitorPort false = s.monitor := rfl
@[simp] theorem State.monitorPort_true (s : State) : s.monitorPort true = none := rfl
@[simp] theorem State.dmemAddr_false (s : State) : s.dmemAddr false = s.monitor.bind (·.memAddr) := rfl
@[simp] theorem State.dmemAddr_true (s : State) : s.dmemAddr true = none := rfl

end Sys2Proof.Machine
end

