-- ==== Sys2Proof/Laws/PerInstr.lean ====
section
/-! SUPPORT. Per-instruction families (LAWS.json): a statement about an instruction as syntax, one lemma per constructor. -/

namespace Sys2Proof.Laws

/-- Every word the encoder gives an instruction lies in the row of the opcode map that carries its operation (R88, R94). -/
def EncodingInRow.Statement (i : Instr) : Prop :=
  ∀ k w, encode k i = some w → ∃ row ∈ opcodeRows, row.op = i.op ∧ row.covers w = true

/-- An R format word with `shamt = 0` is covered by the mask and pattern of its `funct`. -/
theorem rtype_covered (rs rt rd : Reg) (funct : BitVec 6) (pattern : Word)
    (h : pattern = 0#6 ++ 0#15 ++ 0#5 ++ funct) :
    rWord rs rt rd 0#5 funct &&& 0xFC0007FF#32 = pattern := by
  rw [and_rtypeMask, opcodeOf_rWord, shamtOf_rWord, functOf_rWord, h]

/-- An R format word with `rs = 0` is covered by the shift mask and the pattern of its `funct`. -/
theorem shift_covered (rt rd shamt : BitVec 5) (funct : BitVec 6) (pattern : Word)
    (h : pattern = 0#6 ++ 0#5 ++ 0#15 ++ funct) :
    rWord 0#5 rt rd shamt funct &&& 0xFFE0003F#32 = pattern := by
  rw [and_shiftMask, opcodeOf_rWord, rsOf_rWord, functOf_rWord, h]

/-- An I format word is covered by the opcode mask. -/
theorem itype_covered (opcode : BitVec 6) (rs rt : Reg) (imm16 : Imm16) (pattern : Word)
    (h : pattern = opcode ++ 0#26) : iWord opcode rs rt imm16 &&& 0xFC000000#32 = pattern := by
  rw [and_opcodeMask, opcodeOf_iWord, h]

/-- A J format word is covered by the opcode mask. -/
theorem jump_covered (index26 : BitVec 26) : jWord index26 &&& 0xFC000000#32 = 0x08000000#32 := by
  rw [and_opcodeMask, opcodeOf_jWord]
  rfl

theorem EncodingInRow.add (rd rs rt : Reg) : EncodingInRow.Statement (.add rd rs rt) := by
  intro k w h
  cases h
  exact ⟨⟨.add, 0xFC0007FF#32, 0x00000020#32⟩, by decide, rfl, beq_iff_eq.mpr (rtype_covered rs rt rd _ _ rfl)⟩

theorem EncodingInRow.addu (rd rs rt : Reg) : EncodingInRow.Statement (.addu rd rs rt) := by
  intro k w h
  cases h
  exact ⟨⟨.addu, 0xFC0007FF#32, 0x00000021#32⟩, by decide, rfl, beq_iff_eq.mpr (rtype_covered rs rt rd _ _ rfl)⟩

theorem EncodingInRow.sub (rd rs rt : Reg) : EncodingInRow.Statement (.sub rd rs rt) := by
  intro k w h
  cases h
  exact ⟨⟨.sub, 0xFC0007FF#32, 0x00000022#32⟩, by decide, rfl, beq_iff_eq.mpr (rtype_covered rs rt rd _ _ rfl)⟩

theorem EncodingInRow.and (rd rs rt : Reg) : EncodingInRow.Statement (.and rd rs rt) := by
  intro k w h
  cases h
  exact ⟨⟨.and, 0xFC0007FF#32, 0x00000024#32⟩, by decide, rfl, beq_iff_eq.mpr (rtype_covered rs rt rd _ _ rfl)⟩

theorem EncodingInRow.or (rd rs rt : Reg) : EncodingInRow.Statement (.or rd rs rt) := by
  intro k w h
  cases h
  exact ⟨⟨.or, 0xFC0007FF#32, 0x00000025#32⟩, by decide, rfl, beq_iff_eq.mpr (rtype_covered rs rt rd _ _ rfl)⟩

theorem EncodingInRow.nor (rd rs rt : Reg) : EncodingInRow.Statement (.nor rd rs rt) := by
  intro k w h
  cases h
  exact ⟨⟨.nor, 0xFC0007FF#32, 0x00000027#32⟩, by decide, rfl, beq_iff_eq.mpr (rtype_covered rs rt rd _ _ rfl)⟩

theorem EncodingInRow.slt (rd rs rt : Reg) : EncodingInRow.Statement (.slt rd rs rt) := by
  intro k w h
  cases h
  exact ⟨⟨.slt, 0xFC0007FF#32, 0x0000002A#32⟩, by decide, rfl, beq_iff_eq.mpr (rtype_covered rs rt rd _ _ rfl)⟩

theorem EncodingInRow.sltu (rd rs rt : Reg) : EncodingInRow.Statement (.sltu rd rs rt) := by
  intro k w h
  cases h
  exact ⟨⟨.sltu, 0xFC0007FF#32, 0x0000002B#32⟩, by decide, rfl, beq_iff_eq.mpr (rtype_covered rs rt rd _ _ rfl)⟩

theorem EncodingInRow.sll (rd rt : Reg) (imm : Word) : EncodingInRow.Statement (.sll rd rt imm) := by
  intro k w h
  simp only [encode, encodeShift, Option.ite_none_right_eq_some, Option.some.injEq] at h
  obtain ⟨-, rfl⟩ := h
  exact ⟨⟨.sll, 0xFFE0003F#32, 0x00000000#32⟩, by decide, rfl, beq_iff_eq.mpr (shift_covered rt rd _ _ _ rfl)⟩

theorem EncodingInRow.srl (rd rt : Reg) (imm : Word) : EncodingInRow.Statement (.srl rd rt imm) := by
  intro k w h
  simp only [encode, encodeShift, Option.ite_none_right_eq_some, Option.some.injEq] at h
  obtain ⟨-, rfl⟩ := h
  exact ⟨⟨.srl, 0xFFE0003F#32, 0x00000002#32⟩, by decide, rfl, beq_iff_eq.mpr (shift_covered rt rd _ _ _ rfl)⟩

theorem EncodingInRow.halt : EncodingInRow.Statement .halt := by
  intro k w h
  cases h
  exact ⟨⟨.sll, 0xFFE0003F#32, 0x00000000#32⟩, by decide, rfl, rfl⟩

theorem EncodingInRow.addi (rt rs : Reg) (imm16 : Imm16) : EncodingInRow.Statement (.addi rt rs imm16) := by
  intro k w h
  cases h
  exact ⟨⟨.addi, 0xFC000000#32, 0x20000000#32⟩, by decide, rfl, beq_iff_eq.mpr (itype_covered _ rs rt imm16 _ rfl)⟩

theorem EncodingInRow.addiu (rt rs : Reg) (imm16 : Imm16) : EncodingInRow.Statement (.addiu rt rs imm16) := by
  intro k w h
  cases h
  exact ⟨⟨.addiu, 0xFC000000#32, 0x24000000#32⟩, by decide, rfl, beq_iff_eq.mpr (itype_covered _ rs rt imm16 _ rfl)⟩

theorem EncodingInRow.slti (rt rs : Reg) (imm16 : Imm16) : EncodingInRow.Statement (.slti rt rs imm16) := by
  intro k w h
  cases h
  exact ⟨⟨.slti, 0xFC000000#32, 0x28000000#32⟩, by decide, rfl, beq_iff_eq.mpr (itype_covered _ rs rt imm16 _ rfl)⟩

theorem EncodingInRow.sltiu (rt rs : Reg) (imm16 : Imm16) : EncodingInRow.Statement (.sltiu rt rs imm16) := by
  intro k w h
  cases h
  exact ⟨⟨.sltiu, 0xFC000000#32, 0x2C000000#32⟩, by decide, rfl, beq_iff_eq.mpr (itype_covered _ rs rt imm16 _ rfl)⟩

theorem EncodingInRow.andi (rt rs : Reg) (imm16 : Imm16) : EncodingInRow.Statement (.andi rt rs imm16) := by
  intro k w h
  cases h
  exact ⟨⟨.andi, 0xFC000000#32, 0x30000000#32⟩, by decide, rfl, beq_iff_eq.mpr (itype_covered _ rs rt imm16 _ rfl)⟩

theorem EncodingInRow.ori (rt rs : Reg) (imm16 : Imm16) : EncodingInRow.Statement (.ori rt rs imm16) := by
  intro k w h
  cases h
  exact ⟨⟨.ori, 0xFC000000#32, 0x34000000#32⟩, by decide, rfl, beq_iff_eq.mpr (itype_covered _ rs rt imm16 _ rfl)⟩

theorem EncodingInRow.lw (rt rs : Reg) (imm : Word) : EncodingInRow.Statement (.lw rt rs imm) := by
  intro k w h
  simp only [encode, encodeMem, Option.ite_none_right_eq_some, Option.some.injEq] at h
  obtain ⟨-, rfl⟩ := h
  exact ⟨⟨.lw, 0xFC000000#32, 0x8C000000#32⟩, by decide, rfl, beq_iff_eq.mpr (itype_covered _ rs rt _ _ rfl)⟩

theorem EncodingInRow.sw (rt rs : Reg) (imm : Word) : EncodingInRow.Statement (.sw rt rs imm) := by
  intro k w h
  simp only [encode, encodeMem, Option.ite_none_right_eq_some, Option.some.injEq] at h
  obtain ⟨-, rfl⟩ := h
  exact ⟨⟨.sw, 0xFC000000#32, 0xAC000000#32⟩, by decide, rfl, beq_iff_eq.mpr (itype_covered _ rs rt _ _ rfl)⟩

theorem EncodingInRow.beq (rs rt : Reg) (target : Target) : EncodingInRow.Statement (.beq rs rt target) := by
  intro k w h
  cases target with
  | label name => cases h
  | resolved t =>
    simp only [encode, encodeBranch, Option.ite_none_right_eq_some, Option.some.injEq] at h
    obtain ⟨-, rfl⟩ := h
    exact ⟨⟨.beq, 0xFC000000#32, 0x10000000#32⟩, by decide, rfl, beq_iff_eq.mpr (itype_covered _ rs rt _ _ rfl)⟩

theorem EncodingInRow.bne (rs rt : Reg) (target : Target) : EncodingInRow.Statement (.bne rs rt target) := by
  intro k w h
  cases target with
  | label name => cases h
  | resolved t =>
    simp only [encode, encodeBranch, Option.ite_none_right_eq_some, Option.some.injEq] at h
    obtain ⟨-, rfl⟩ := h
    exact ⟨⟨.bne, 0xFC000000#32, 0x14000000#32⟩, by decide, rfl, beq_iff_eq.mpr (itype_covered _ rs rt _ _ rfl)⟩

theorem EncodingInRow.j (target : Target) : EncodingInRow.Statement (.j target) := by
  intro k w h
  cases target with
  | label name => cases h
  | resolved t =>
    simp only [encode, encodeJump, Option.ite_none_right_eq_some, Option.some.injEq] at h
    obtain ⟨-, rfl⟩ := h
    exact ⟨⟨.j, 0xFC000000#32, 0x08000000#32⟩, by decide, rfl, beq_iff_eq.mpr (jump_covered _)⟩

end Sys2Proof.Laws
end

