-- ==== Sys2Proof/Tests/Slice0.lean ====
section
/-! SUPPORT. Small tests: the well-formedness checks, decoding and encoding of words written out from the spec's encodings,
single steps with results from the spec's tables (spec/95_test_vectors.md), and a witness for the hypotheses of every
obligation that has some. -/

namespace Sys2Proof.Tests

open Sys2Proof.Machine

/-! ## Helpers -/

/-- The next state of an outcome. -/
def nextOf : Host.Outcome State Fault Refusal → Option State
  | .next t => some t
  | .fault _ => none
  | .refused _ => none

/-- One step of the word `w` at the PC of `s`. -/
def stepWord (s : State) (w : Nat) : Option State := nextOf (step (s.withFetchWord 32 w))

/-- The reset state with two registers set: `$t0 = x[8]` and `$t1 = x[9]`. -/
def withT0T1 (v u : Word) : State := (State.reset.setReg 8#5 v).setReg 9#5 u

/-- The reset state at instruction index `k`. -/
def atIndex (k : Index) (s : State) : State := { s with pc := pcOfIndex k }

/-- What one step of the word `w` leaves in register `r`. -/
def regAfter (s : State) (w : Nat) (r : Reg) : Option Word := (stepWord s w).map fun t => t.reg r

/-- What one step of the word `w` leaves in the PC. -/
def pcAfter (s : State) (w : Nat) : Option Word := (stepWord s w).map (·.pc)

/-- The example of the source (95_test_vectors.md 1.1), with a label table. -/
def exampleState : State :=
  { State.reset with
    program := [.word 0x20080005#32, .word 0x20090003#32, .word 0x01095020#32, .word 0xAF8A0000#32, .word 0x8F8B0000#32,
      .word 0x00000000#32]
    labels := [("done", 6#30), ("loop", 2#30)] }

/-- A record-level `beq $t0, $zero, done`. -/
def beqRecord : Record := ⟨.beq, some 8#5, some 0#5, none, 0#32, some (.label "done"), "beq $t0, $zero, done"⟩

/-- A record-level `j nowhere`, a label that no table here has. -/
def strayRecord : Record := ⟨.j, none, none, none, 0#32, some (.label "nowhere"), "j nowhere"⟩

/-- A record of an unknown mnemonic. -/
def unknownRecord : Record := ⟨.unsupported, none, none, none, 0#32, none, "xor $t0, $t1, $t2"⟩

/-- A record-level program: a branch, an unknown mnemonic, a jump to a missing label. -/
def recordState : State :=
  { State.reset with program := [.record beqRecord, .record unknownRecord, .record strayRecord], labels := [("done", 2#30)] }

/-! ## Well-formedness: one ill-formed term for each check -/

theorem test_illFormed_slotMissing :
    Record.illFormed ⟨.add, some 1#5, none, some 2#5, 0#32, none, ""⟩ = some .slotMissing := by decide
theorem test_illFormed_slotNotEmpty :
    Record.illFormed ⟨.sll, some 1#5, some 1#5, some 2#5, 3#32, none, ""⟩ = some .slotNotEmpty := by decide
theorem test_illFormed_shiftAmountRange :
    Record.illFormed ⟨.srl, none, some 1#5, some 2#5, 32#32, none, ""⟩ = some .shiftAmountRange ∧
    Instr.illFormed (.sll 1#5 2#5 32#32) = some .shiftAmountRange ∧
    Instr.illFormed (.srl 1#5 2#5 33#32) = some .shiftAmountRange := by decide
theorem test_illFormed_immediateRange :
    Record.illFormed ⟨.addi, some 1#5, some 2#5, none, 65536#32, none, ""⟩ = some .immediateRange ∧
    Record.illFormed ⟨.ori, some 1#5, some 2#5, none, BitVec.ofInt 32 (-32769), none, ""⟩ = some .immediateRange := by decide
theorem test_illFormed_haltSpelledSll : Instr.illFormed (.sll 0#5 0#5 0#32) = some .haltSpelledSll := by decide
theorem test_wellFormed_boundaries :
    Record.wellFormed ⟨.addi, some 1#5, some 2#5, none, 65535#32, none, ""⟩ = true ∧
    Record.wellFormed ⟨.addi, some 1#5, some 2#5, none, BitVec.ofInt 32 (-32768), none, ""⟩ = true ∧
    Record.wellFormed ⟨.sll, none, some 1#5, some 2#5, 31#32, none, ""⟩ = true ∧ beqRecord.wellFormed = true ∧
    Instr.wellFormed (.sll 0#5 0#5 1#32) = true := by decide

/-! ## Decoding: words from the encodings of spec/41_rtype.md to 45_branch_jump.md and 95_test_vectors.md 2.1 -/

theorem test_decode_rtype :
    decode 5#30 0b00000001000010010101000000100000#32 = .instr (.add 10#5 8#5 9#5) ∧
    decode 0#30 0x01095021#32 = .instr (.addu 10#5 8#5 9#5) ∧ decode 0#30 0x01095022#32 = .instr (.sub 10#5 8#5 9#5) ∧
    decode 0#30 0x01095024#32 = .instr (.and 10#5 8#5 9#5) ∧ decode 0#30 0x01095025#32 = .instr (.or 10#5 8#5 9#5) ∧
    decode 0#30 0x01095027#32 = .instr (.nor 10#5 8#5 9#5) ∧ decode 0#30 0x0109502A#32 = .instr (.slt 10#5 8#5 9#5) ∧
    decode 0#30 0x0109502B#32 = .instr (.sltu 10#5 8#5 9#5) := by decide
theorem test_decode_shift :
    decode 0#30 0b00000000000100000100100010000000#32 = .instr (.sll 9#5 16#5 2#32) ∧
    decode 0#30 0x000C6902#32 = .instr (.srl 13#5 12#5 4#32) ∧ decode 0#30 0x000E7FC2#32 = .instr (.srl 15#5 14#5 31#32) ∧
    decode 0#30 0x00000000#32 = .instr .halt ∧ decode 0#30 0x00000040#32 = .instr (.sll 0#5 0#5 1#32) ∧
    decode 0#30 0x00000002#32 = .instr (.srl 0#5 0#5 0#32) ∧ decode 0#30 0x000800C0#32 = .instr (.sll 0#5 8#5 3#32) := by
  decide
theorem test_decode_itype :
    decode 0#30 0b00100001001010001111111111111111#32 = .instr (.addi 8#5 9#5 0xFFFF#16) ∧
    decode 0#30 0x2528FFFF#32 = .instr (.addiu 8#5 9#5 0xFFFF#16) ∧
    decode 0#30 0x2928FFFF#32 = .instr (.slti 8#5 9#5 0xFFFF#16) ∧
    decode 0#30 0x2D28FFFF#32 = .instr (.sltiu 8#5 9#5 0xFFFF#16) ∧
    decode 0#30 0x3128FFFF#32 = .instr (.andi 8#5 9#5 0xFFFF#16) ∧
    decode 0#30 0x3528FFFF#32 = .instr (.ori 8#5 9#5 0xFFFF#16) := by decide
theorem test_decode_load_store :
    decode 0#30 0b10001111101010001111111111111100#32 = .instr (.lw 8#5 29#5 0xFFFFFFFC#32) ∧
    decode 0#30 0x8D287FFF#32 = .instr (.lw 8#5 9#5 0x00007FFF#32) ∧
    decode 0#30 0b10101111101010001111111111111100#32 = .instr (.sw 8#5 29#5 0xFFFFFFFC#32) := by decide
theorem test_decode_branch :
    decode 2#30 0b00010001000010010000000000000011#32 = .instr (.beq 8#5 9#5 (.resolved 6#30)) ∧
    decode 10#30 0b00010101000010011111111111111101#32 = .instr (.bne 8#5 9#5 (.resolved 8#30)) ∧
    decode 7#30 0x1000FFFF#32 = .instr (.beq 0#5 0#5 (.resolved 7#30)) ∧
    decode 0#30 0x1100FFFE#32 = .instr (.beq 8#5 0#5 (.resolved 1073741823#30)) ∧
    decode 32768#30 0x11098000#32 = .instr (.beq 8#5 9#5 (.resolved 1#30)) := by decide
theorem test_decode_jump :
    decode 5#30 0b00001000000000000000000000000010#32 = .instr (.j (.resolved 2#30)) ∧
    decode 0#30 0x0BFFFFFF#32 = .instr (.j (.resolved 67108863#30)) ∧
    decode 67108863#30 0x08000000#32 = .instr (.j (.resolved 67108864#30)) := by decide
theorem test_decode_unsupported :
    decode 0#30 0x01095060#32 = .unsupported .shamtNotZero ∧ decode 0#30 0x01204000#32 = .unsupported .rsNotZero ∧
    decode 0#30 0x00094043#32 = .unsupported .funct ∧ decode 0#30 0x01095023#32 = .unsupported .funct ∧
    decode 0#30 0x01095026#32 = .unsupported .funct ∧ decode 0#30 0x0000000C#32 = .unsupported .funct ∧
    decode 0#30 0x0000000D#32 = .unsupported .funct ∧ decode 0#30 0x03E00008#32 = .unsupported .funct ∧
    decode 0#30 0x00000001#32 = .unsupported .funct := by decide
theorem test_decode_unsupported_opcode :
    decode 0#30 0x3C081234#32 = .unsupported .opcode ∧ decode 0#30 0x0C000002#32 = .unsupported .opcode ∧
    decode 0#30 0x39280001#32 = .unsupported .opcode ∧ decode 0#30 0x81280000#32 = .unsupported .opcode ∧
    decode 0#30 0xA1280000#32 = .unsupported .opcode ∧ decode 0#30 0x04010003#32 = .unsupported .opcode ∧
    decode 0#30 0x70000000#32 = .unsupported .opcode ∧ decode 0#30 0xFFFFFFFF#32 = .unsupported .opcode := by decide
theorem test_decode_table_word :
    decodeTableWord 32 0x2128FFFF = some (.addi 8#5 9#5 0xFFFF#16) ∧ decodeTableWord 32 0xFFFFFFFF = none := by decide
theorem test_decode_record :
    decodeRecord 0#30 0x2128FFFF#32 = ⟨.addi, some 9#5, some 8#5, none, 0x0000FFFF#32, none, "2128FFFF"⟩ ∧
    decodeRecord 0#30 0x000947C0#32 = ⟨.sll, none, some 9#5, some 8#5, 0x0000001F#32, none, "000947C0"⟩ := by decide
theorem test_encode :
    encode 2#30 (.beq 8#5 0#5 (.resolved 6#30)) = some 0x11000003#32 ∧
    encode 10#30 (.bne 16#5 0#5 (.resolved 2#30)) = some 0x1600FFF7#32 ∧
    encode 5#30 (.j (.resolved 2#30)) = some 0x08000002#32 ∧ encode 0#30 (.sw 8#5 0#5 0xFFFFFFFF#32) = some 0xAC08FFFF#32 ∧
    encode 0#30 (.beq 8#5 0#5 (.resolved 40000#30)) = none ∧ encode 0#30 (.lw 8#5 0#5 0x00008000#32) = none := by decide

/-! ## One step of each instruction: 95_test_vectors.md 2.2 to 2.7 -/

theorem test_add_wraps : regAfter (withT0T1 0x7FFFFFFF#32 1#32) 0x01095020 10#5 = some 0x80000000#32 := by decide
theorem test_add_to_zero_register :
    (stepWord (withT0T1 5#32 3#32) 0x01090020).map (fun t => (t.reg 0#5, t.pc, t.cycleCount)) = some (0#32, 4#32, 1) := by
  decide
theorem test_addu_wraps : regAfter (withT0T1 0xFFFFFFFF#32 0xFFFFFFFF#32) 0x01095021 10#5 = some 0xFFFFFFFE#32 := by decide
theorem test_sub_wraps : regAfter (withT0T1 0x80000000#32 1#32) 0x01095022 10#5 = some 0x7FFFFFFF#32 := by decide
theorem test_sub_order : regAfter (withT0T1 3#32 5#32) 0x01095022 10#5 = some 0xFFFFFFFE#32 := by decide
theorem test_and : regAfter (withT0T1 0x12345678#32 0x0F0F0F0F#32) 0x01095024 10#5 = some 0x02040608#32 := by decide
theorem test_or : regAfter (withT0T1 0x12345678#32 0x0F0F0F0F#32) 0x01095025 10#5 = some 0x1F3F5F7F#32 := by decide
theorem test_nor : regAfter (withT0T1 0x12345678#32 0x0F0F0F0F#32) 0x01095027 10#5 = some 0xE0C0A080#32 := by decide
theorem test_slt_signed : regAfter (withT0T1 0x80000000#32 1#32) 0x0109502A 10#5 = some 1#32 := by decide
theorem test_slt_reports_difference :
    (((withT0T1 0x80000000#32 1#32).withFetchWord 32 0x0109502A).monitor.bind (·.aluOut)) = some 0x7FFFFFFF#32 := by decide
theorem test_sltu_unsigned : regAfter (withT0T1 0x80000000#32 1#32) 0x0109502B 10#5 = some 0#32 := by decide
theorem test_sltu_less : regAfter (withT0T1 0#32 0xFFFFFFFF#32) 0x0109502B 10#5 = some 1#32 := by decide
theorem test_sll : regAfter (withT0T1 0#32 0x80000001#32) 0x000947C0 8#5 = some 0x80000000#32 := by decide
theorem test_sll_to_zero_runs_on :
    (stepWord State.reset 0x00000040).map (fun t => (t.runState, t.pc)) = some (.running, 4#32) := by decide
theorem test_srl_zero_fill : regAfter (State.reset.setReg 12#5 0xFFFFFFFF#32) 0x000C6902 13#5 = some 0x0FFFFFFF#32 := by decide
theorem test_srl_zero_is_no_halt :
    (stepWord State.reset 0x00000002).map (fun t => (t.runState, t.pc)) = some (.running, 4#32) := by decide
theorem test_halt :
    (stepWord (atIndex 5#30 State.reset) 0x00000000).map (fun t => (t.runState, t.pc, t.cycleCount)) =
      some (.halted, 0x18#32, 1) := by decide
theorem test_addi_minus_one : regAfter (withT0T1 0#32 0x80000000#32) 0x2128FFFF 8#5 = some 0x7FFFFFFF#32 := by decide
theorem test_addi_source_is_destination : regAfter (withT0T1 5#32 0#32) 0x2108FFFF 8#5 = some 4#32 := by decide
theorem test_addiu_sign_extends : regAfter (withT0T1 0#32 0x12345678#32) 0x25288000 8#5 = some 0x1233D678#32 := by decide
theorem test_slti : regAfter (withT0T1 0#32 0xFFFFFFFE#32) 0x2928FFFF 8#5 = some 1#32 := by decide
theorem test_slti_not_less : regAfter (withT0T1 0#32 5#32) 0x2928FFFF 8#5 = some 0#32 := by decide
theorem test_sltiu_sign_extends_then_unsigned : regAfter (withT0T1 0#32 5#32) 0x2D28FFFF 8#5 = some 1#32 := by decide
theorem test_andi_zero_extends : regAfter (withT0T1 0#32 0xFFFFFFFF#32) 0x3128FFFF 8#5 = some 0x0000FFFF#32 := by decide
theorem test_ori_zero_extends : regAfter (withT0T1 0#32 0x80000000#32) 0x3528FFFF 8#5 = some 0x8000FFFF#32 := by decide
theorem test_lw_wraps :
    regAfter ((withT0T1 0#32 0xFFFFFFFC#32).memWrite 0#32 7#32) 0x8D280004 8#5 = some 7#32 := by decide
theorem test_lw_unaligned_is_its_own_cell :
    regAfter (State.reset.memWrite 0x10008000#32 0xAABBCCDD#32) 0x8F8C0001 12#5 = some 0#32 := by decide
theorem test_sw :
    (stepWord (withT0T1 0xFFFFFFFF#32 0#32) 0xAFA8FFFC).map (·.mem.cells) = some [(0x7FFFFFF8, 0xFFFFFFFF#32)] := by decide
theorem test_sw_zero_stays_listed :
    (stepWord State.reset 0xAF800000).map (·.mem.cells) = some [(0x10008000, 0#32)] := by decide
theorem test_beq_taken : pcAfter (atIndex 2#30 (withT0T1 7#32 7#32)) 0x11090003 = some 0x18#32 := by decide
theorem test_beq_not_taken : pcAfter (atIndex 2#30 (withT0T1 7#32 8#32)) 0x11090003 = some 0x0C#32 := by decide
theorem test_bne_taken : pcAfter (atIndex 10#30 (withT0T1 7#32 8#32)) 0x1509FFFD = some 0x20#32 := by decide
theorem test_bne_not_taken : pcAfter (atIndex 10#30 (withT0T1 7#32 7#32)) 0x1509FFFD = some 0x2C#32 := by decide
theorem test_j : pcAfter (atIndex 5#30 State.reset) 0x08000002 = some 0x08#32 := by decide
theorem test_j_largest_field : pcAfter State.reset 0x0BFFFFFF = some 0x0FFFFFFC#32 := by decide

/-! ## Stops, UNSUPPORTED, reset, the empty program (95_test_vectors.md 2.7; spec/70_reset_and_hazards.md R230, R233) -/

theorem test_unsupported_word :
    (stepWord State.reset 0x0000000D).map (fun t => (t.runState, t.pc, t.cycleCount, t.regs == State.reset.regs)) =
      some (.running, 4#32, 1, true) := by decide
theorem test_empty_program :
    (nextOf (step State.reset)).map (fun t => (t.runState, t.pc, t.cycleCount)) = some (.exhausted, 0#32, 0) := by decide
theorem test_labelError :
    (nextOf (step (atIndex 2#30 recordState))).map (fun t => (t.runState, t.pc, t.cycleCount)) =
      some (.labelError, 8#32, 1) := by decide
theorem test_slotAbsent_faults :
    (match step { State.reset with program := [.record ⟨.add, none, none, none, 0#32, none, ""⟩] } with
      | .fault .slotAbsent => true
      | _ => false) = true := by decide
theorem test_reset_edge :
    (nextOf (clockEdge true ((withT0T1 1#32 2#32).memWrite 4#32 5#32).haltNow)) = some State.reset := by decide
theorem test_monitor_of_sw :
    ((atIndex 3#30 (exampleState.setReg 10#5 8#32)).monitor.map fun m =>
      (m.reg1, m.reg2, m.reg3, m.val1, m.val3, m.memAddr, m.stored, m.loaded)) =
      some (some 28#5, none, some 10#5, some 0x10008000#32, some 8#32, some 0x10008000#32, some 8#32, none) := by decide
theorem test_monitor_of_halt :
    ((atIndex 5#30 exampleState).monitor.map fun m => (m.reg1, m.reg3, m.aluOut, m.ctrl, m.unsupported)) =
      some (some 0#5, some 0#5, some 0#32, ⟨false, false, false, false, false, 2#2, false, true, true⟩, false) := by decide
theorem test_summary :
    ((State.reset.memWrite 8#32 1#32).memWrite 4#32 2#32).haltNow.summary.map (fun m => (m.memory, m.stop, m.finalPc)) =
      some ([(4, 2#32), (8, 1#32)], .halted, 4#32) := by decide

/-! ## The assembler (spec/30_encoding.md R94 to R99; 95_test_vectors.md 1.1) -/

/-- The source's example with a label, a blank line and a jump. -/
def exampleText : List SourceLine :=
  [⟨none, some ("addi", [.reg "$t0", .reg "$zero", .literal 5]), ""⟩,
   ⟨none, some ("addi", [.reg "$t1", .reg "$zero", .literal 3]), ""⟩,
   ⟨some "again", some ("add", [.reg "$t2", .reg "$t0", .reg "$t1"]), ""⟩,
   ⟨none, none, "# a comment"⟩, ⟨none, some ("sw", [.reg "$t2", .based 0 "$gp"]), ""⟩,
   ⟨none, some ("beq", [.reg "$t0", .reg "$zero", .label "again"]), ""⟩, ⟨none, some ("j", [.label "again"]), ""⟩]

/-- The value of a computation of the loader, if it has one. -/
def okOf {ε α : Type} : Except ε α → Option α
  | .ok a => some a
  | .error _ => none

theorem test_assemble_words :
    okOf (assembleWordProgram exampleText) =
      some [.word 0x20080005#32, .word 0x20090003#32, .word 0x01095020#32, .word 0xAF8A0000#32, .word 0x1100FFFD#32,
        .word 0x08000002#32] := by decide
theorem test_assemble_labels : okOf ((assembleProgram exampleText).map (·.2)) = some [("again", 2#30)] := by decide
theorem test_assemble_unknown_mnemonic :
    okOf (assemble [⟨none, some ("nop", []), "nop"⟩]) = some [⟨.unsupported, none, none, none, 0#32, none, "nop"⟩] := by decide
theorem test_assemble_refusals :
    okOf (assemble [⟨none, some ("addi", [.reg "$t0", .reg "$zero", .literal 70000]), ""⟩]) = none ∧
    okOf (assemble [⟨none, some ("sll", [.reg "$t0", .reg "$t1", .literal 33]), ""⟩]) = none ∧
    okOf (assemble [⟨none, some ("add", [.reg "$8", .reg "$t0", .reg "$t1"]), ""⟩]) = none := by decide

/-! ## Witnesses: a state and operands that meet the hypotheses of each obligation that has some -/

/-- The example state with the sum computed, at its `sw`. -/
def atSw : State := atIndex 3#30 (((exampleState.setReg 8#5 5#32).setReg 9#5 3#32).setReg 10#5 8#32)

/-- The memory with one cell. -/
def oneCell : Memory := ⟨[(0x10008000, 8#32)]⟩

theorem inv_exampleState : exampleState.Inv := ⟨by decide, by decide, by decide, by decide⟩

theorem witness_StepKeepsInvariant : atSw.Inv ∧ ∃ t, step atSw = .next t :=
  ⟨⟨by decide, by decide, by decide, by decide⟩, _, rfl⟩

theorem witness_Load : ∃ s, load recordState.program recordState.labels = .ok s := ⟨_, rfl⟩
theorem witness_Load_refuses :
    okOf (load [.record ⟨.sll, none, some 1#5, some 2#5, 32#32, none, ""⟩] []) = none := by decide

theorem witness_ResetEdge : atSw.program.length ≤ 2 ^ 30 := by decide

theorem witness_MemRead :
    State.reset.isStored 4#32 = false ∧ (State.reset.memWrite 4#32 9#32).mem.cell 4#32 = some 9#32 := by decide

theorem witness_StoreThenLoad :
    (∃ t, exec (.sw 10#5 28#5 0#32) atSw = .next t ∧
      effectiveAddress 28#5 0#32 t = effectiveAddress 28#5 0#32 atSw) ∧ (11#5 : Reg) ≠ 0#5 := ⟨⟨_, rfl, rfl⟩, by decide⟩

theorem witness_CanonicalMemories : oneCell.wf = true ∧ ∀ a, oneCell.cell a = oneCell.cell a := ⟨by decide, fun _ => rfl⟩

theorem witness_StoredSetOnlyGrows :
    (∃ t, step (State.reset.memWrite 4#32 9#32) = .next t) ∧ (State.reset.memWrite 4#32 9#32).isStored 4#32 = true :=
  ⟨⟨_, rfl⟩, by decide⟩

/-- At the `lw` of the example no cell is stored to. -/
theorem not_storesTo_atLw (a : Word) : ¬ (atIndex 4#30 exampleState).storesTo a := by
  rintro ⟨-, rt, rs, imm, h, -⟩
  cases h

theorem witness_OnlyAStore :
    (∃ t, step (atIndex 4#30 exampleState) = .next t) ∧ ¬ (atIndex 4#30 exampleState).storesTo 4#32 :=
  ⟨⟨_, rfl⟩, not_storesTo_atLw _⟩

theorem witness_ReadReturnsTheMostRecentStore :
    atSw.runState = .running ∧ atSw.fetch = .instr (.sw 10#5 28#5 0#32) ∧ ∃ s' t, step atSw = .next s' ∧
      (∀ m < 1, ∀ u, Sys2Proof.core.run m s' = .next u → ¬ u.storesTo (effectiveAddress 28#5 0#32 atSw)) ∧
      Sys2Proof.core.run 1 s' = .next t := by
  refine ⟨rfl, by decide, _, _, rfl, ?_, rfl⟩
  intro m hm u hu
  obtain rfl : m = 0 := by omega
  cases hu
  rintro ⟨-, rt, rs, imm, h, -⟩
  cases h

theorem witness_AluShifts :
    (32#32 : Word).toNat % 32 = 0 ∧ aluFnOf .srl = some .srl ∧
    recordOperands ⟨.sll, none, some 1#5, some 2#5, 3#32, none, ""⟩ none (some 7#32) = some ⟨7#32, 3#32⟩ := by decide

theorem witness_Immediates :
    recordOperands ⟨.ori, some 1#5, some 2#5, none, 0xFFFF#32, none, ""⟩ (some 7#32) none = some ⟨7#32, 0xFFFF#32⟩ ∧
    (decodeRecord 0#30 0x3528FFFF#32).op.family = .itype := by decide

theorem witness_ShiftInstructions : ¬ ((0#5 : Reg) = 0#5 ∧ (0#5 : Reg) = 0#5 ∧ (1#32 : Word) = 0#32) := by decide

theorem witness_HaltWord :
    (atIndex 5#30 exampleState).runState = .running ∧ (atIndex 5#30 exampleState).entry = some (.word 0#32) ∧
    (atIndex 5#30 exampleState).pc.toNat % 4 = 0 := by decide

theorem witness_StoreWord : effectiveAddress 9#5 0xFFFFFFFC#32 (withT0T1 0#32 0#32) = 0xFFFFFFFC#32 := by decide

theorem witness_Branches :
    (withT0T1 7#32 7#32).reg 8#5 = (withT0T1 7#32 7#32).reg 9#5 ∧ exampleState.resolve (.label "done") = some 6#30 ∧
    (withT0T1 7#32 8#32).reg 8#5 ≠ (withT0T1 7#32 8#32).reg 9#5 := by decide

theorem witness_Jump : exampleState.resolve (.resolved 1073741823#30) = some 1073741823#30 := by decide

theorem witness_Unresolved :
    recordState.resolve (.label "nowhere") = none ∧ recordState.reg 8#5 = recordState.reg 0#5 ∧
    recordState.reg 28#5 ≠ recordState.reg 0#5 := by decide

theorem witness_Labels :
    (exampleState.labels.map Prod.fst).Nodup ∧ ("loop", 2#30) ∈ exampleState.labels ∧
    exampleState.resolve (.label "loop") = some 2#30 ∧ exampleState.resolve (.label "absent") = none := by decide

theorem witness_Labels_duplicate :
    ({ exampleState with labels := [("done", 6#30), ("loop", 2#30), ("loop", 3#30)] } : State).labels =
      [("done", 6#30)] ++ ("loop", 2#30) :: [("loop", 3#30)] ∧
    (∀ y, (("loop", y) : String × Index) ∉ [("done", 6#30)]) ∧
    ({ exampleState with labels := [("done", 6#30), ("loop", 2#30), ("loop", 3#30)] } : State).resolve (.label "loop") =
      some 2#30 := by
  refine ⟨rfl, ?_, by decide⟩
  intro y h
  simp at h

theorem witness_ControlFlow :
    (Instr.bne 1#5 2#5 (.resolved 3#30)).family = .bne ∧ beqRecord.op.family = .beq ∧ strayRecord.op.family = .jump := by
  decide

theorem witness_StepRunsTheDecodedWord :
    exampleState.runState = .running ∧ exampleState.program[exampleState.index.toNat]? = some (.word 0x20080005#32) ∧
    decode exampleState.index 0x20080005#32 = .instr (.addi 8#5 0#5 5#16) := by decide

theorem witness_StepRunsTheRecord :
    recordState.runState = .running ∧ recordState.program[recordState.index.toNat]? = some (.record beqRecord) ∧
    beqRecord.classify = .instr (.beq 8#5 0#5 (.label "done")) := by decide

theorem witness_Fetch :
    (atIndex 6#30 exampleState).program.length ≤ (atIndex 6#30 exampleState).pc.toNat / 4 ∧
    (atIndex 5#30 exampleState).pc.toNat / 4 < (atIndex 5#30 exampleState).program.length ∧
    (∃ t, step (atIndex 5#30 exampleState) = .next t) := ⟨by decide, by decide, _, rfl⟩

theorem witness_Unsupported_word :
    (State.reset.withFetchWord 32 0x01095060).entry = some (.word 0x01095060#32) ∧
    ∀ row ∈ opcodeRows, row.covers 0x01095060#32 = false := by decide
theorem witness_Unsupported_record :
    (atIndex 1#30 recordState).entry = some (.record unknownRecord) ∧ unknownRecord.op = .unsupported := by decide

theorem witness_TerminalState : atSw.haltNow.runState ≠ .running := by decide

theorem witness_StepStops :
    ({ State.reset with program := [.record ⟨.j, none, none, none, 0#32, none, ""⟩] } : State).entry =
      some (.record ⟨.j, none, none, none, 0#32, none, ""⟩) ∧
    Record.slotsPresent ⟨.j, none, none, none, 0#32, none, ""⟩ = false := by decide

theorem witness_CycleIsAllOrNothing :
    (∃ t, step (atIndex 2#30 recordState) = .next t ∧ t.runState = .labelError) ∧
    (∃ t, step (atIndex 5#30 exampleState) = .next t ∧ t.runState = .halted) ∧
    (∃ t, step (atIndex 6#30 exampleState) = .next t ∧ t.runState = .exhausted) :=
  ⟨⟨_, rfl, rfl⟩, ⟨_, rfl, rfl⟩, ⟨_, rfl, rfl⟩⟩

theorem witness_PcAfterAStep_straight :
    (atIndex 6#30 exampleState).fetch = .pastEnd ∧ (atIndex 1#30 recordState).fetch = .unsupported ∧
    exampleState.fetch = .instr (.addi 8#5 0#5 5#16) ∧ targetOf (.addi 8#5 0#5 5#16) = none := by decide
theorem witness_PcAfterAStep_transfer :
    recordState.fetch = .instr (.beq 8#5 0#5 (.label "done")) ∧
    (atIndex 2#30 recordState).fetch = .instr (.j (.label "nowhere")) ∧
    (State.reset.withFetchWord 32 0x1509FFFF).fetch = .instr (.bne 8#5 9#5 (.resolved 0#30)) := by decide

theorem witness_CycleCounter : ∃ t, step atSw = .next t := ⟨_, rfl⟩

theorem witness_StoresNeverChangeTheProgram : ∃ t, Sys2Proof.core.run 3 atSw = .next t := ⟨_, rfl⟩

theorem witness_WordPrograms :
    exampleState.wordLevel ∧ exampleState.runState ≠ .labelError ∧ ∃ t, Sys2Proof.core.run 2 exampleState = .next t := by
  refine ⟨?_, by decide, _, rfl⟩
  intro e he
  simp only [exampleState, List.mem_cons, List.not_mem_nil, or_false] at he
  obtain rfl | rfl | rfl | rfl | rfl | rfl := he <;> exact ⟨_, rfl⟩

/-- Every record of the record-level program has its slots. -/
theorem slotsPresent_recordState : recordState.slotsPresent := by
  intro r hr
  simp only [recordState, List.mem_cons, Entry.record.injEq, List.not_mem_nil, or_false] at hr
  obtain rfl | rfl | rfl := hr <;> decide

theorem witness_StepIsTheTenStepCycle : recordState.slotsPresent := slotsPresent_recordState

theorem witness_DecodeOfEncode :
    Instr.wellFormed (.bne 16#5 0#5 (.resolved 2#30)) = true ∧
    encode 10#30 (.bne 16#5 0#5 (.resolved 2#30)) = some 0x1600FFF7#32 := by decide

theorem witness_EncodableInstructions :
    Instr.wellFormed (.lw 8#5 9#5 0x00007FFF#32) = true ∧ encode 0#30 (.lw 8#5 9#5 0x00007FFF#32) = some 0x8D287FFF#32 ∧
    encode 0#30 (.lw 8#5 9#5 0x00008000#32) = none ∧ encode 0#30 (.lw 8#5 9#5 0xFFFF8000#32) = some 0x8D288000#32 := by decide

theorem witness_DecodeDropsNoBit : decode 7#30 0x1000FFFF#32 = .instr (.beq 0#5 0#5 (.resolved 7#30)) := by decide

theorem witness_DecoderFollowsTheOpcodeMap :
    OpcodeRow.covers ⟨.add, 0xFC0007FF#32, 0x00000020#32⟩ 0x01095020#32 = true ∧
    ∀ row ∈ opcodeRows, row.covers 0x00094043#32 = false := by decide

theorem witness_RecordOfAWord :
    decode 2#30 0x11090003#32 = .instr (.beq 8#5 9#5 (.resolved 6#30)) ∧
    decode 2#30 0x04010003#32 = .unsupported .opcode := by decide

theorem witness_WordLevelAgrees :
    Instr.wellFormed (.beq 8#5 0#5 (.label "done")) = true ∧ exampleState.resolve (.label "done") = some 6#30 ∧
    encode 2#30 (resolvedAt 6#30 (.beq 8#5 0#5 (.label "done"))) = some 0x11000003#32 ∧
    decode 2#30 0x11000003#32 = .instr (.beq 8#5 0#5 (.resolved 6#30)) := by decide

theorem witness_AssembledPrograms :
    ∃ program labels words, assembleProgram exampleText = .ok (program, labels) ∧
      assembleWordProgram exampleText = .ok words ∧ words[4]? = some (.word 0x1100FFFD#32) ∧
      program[4]? = some (.record ⟨.beq, some 8#5, some 0#5, none, 0#32, some (.label "again"), ""⟩) ∧
      ({ exampleState with labels := labels } : State).labels = labels := ⟨_, _, _, rfl, rfl, rfl, rfl, rfl⟩

theorem witness_RegisterNames : Reg.ofName "$sp" = some 29#5 ∧ Reg.ofName "$8" = none := by decide

theorem witness_ControlVectorSaysWhatChanges :
    (∃ t, exec (.sw 10#5 28#5 0#32) atSw = .next t) ∧ (ctrl (Instr.sw 10#5 28#5 0#32).family).memWrite = true ∧
    (ctrl (Instr.sw 10#5 28#5 0#32).family).regWrite = false := ⟨⟨_, rfl⟩, by decide, by decide⟩
theorem witness_ControlVectorSaysWhatChanges_register :
    (∃ t, exec (.addi 8#5 9#5 5#16) State.reset = .next t) ∧ destinationOf (.addi 8#5 9#5 5#16) ≠ some 9#5 ∧
    destinationOf (.sw 10#5 28#5 0#32) ≠ some 10#5 ∧ (ctrl (Instr.addi 8#5 9#5 5#16).family).memWrite = false ∧
    (ctrl (Instr.addi 8#5 9#5 5#16).family).jump = false ∧ (ctrl (Instr.addi 8#5 9#5 5#16).family).branch = false :=
  ⟨⟨_, rfl⟩, by decide, by decide, by decide, by decide, by decide⟩

theorem witness_Monitor :
    (∃ t, step atSw = .next t) ∧ (∃ m, atSw.monitor = some m ∧ m.reg1 = some 28#5 ∧ m.memAddr = some 0x10008000#32) ∧
    (∃ r, atSw.fetchRecord = some r ∧ r.op = .sw) := ⟨⟨_, rfl⟩, ⟨_, rfl, rfl, by decide⟩, _, rfl, rfl⟩
theorem witness_Monitor_zeroRegister :
    ∃ m, exampleState.monitor = some m ∧ m.reg1 = some 0#5 ∧ m.reg3 = some 8#5 := ⟨_, rfl, rfl, rfl⟩
theorem witness_Monitor_stops :
    (∃ m, (atIndex 5#30 exampleState).monitor = some m ∧ m.reg3 = some 0#5) ∧
    (∃ m, (atIndex 2#30 recordState).monitor = some m ∧ m.aluOut = none) := ⟨⟨_, rfl, rfl⟩, _, rfl, rfl⟩
theorem witness_MonitorReportsTheAluOutput :
    (∃ m, ((withT0T1 3#32 5#32).withFetchWord 32 0x0109502A).monitor = some m ∧ m.aluOut = some 0xFFFFFFFE#32) ∧
    ((withT0T1 3#32 5#32).withFetchWord 32 0x0109502A).fetch = .instr (.slt 10#5 8#5 9#5) ∧
    ((withT0T1 3#32 5#32).withFetchWord 32 0x2D28FFFF).fetch = .instr (.sltiu 8#5 9#5 0xFFFF#16) ∧
    (atIndex 4#30 exampleState).fetch = .instr (.lw 11#5 28#5 0#32) := ⟨⟨_, rfl, by decide⟩, by decide, by decide, by decide⟩

theorem witness_MonitorReportsTheAluOutput_branch :
    recordState.fetch = .instr (.beq 8#5 0#5 (.label "done")) ∧ ∃ m, recordState.monitor = some m ∧
      m.label = some (.label "done") ∧ m.aluOut = none ∧ m.text = "beq $t0, $zero, done" := ⟨by decide, _, rfl, rfl, rfl, rfl⟩
theorem witness_MonitorReportsTheAluOutput_unsupported :
    (atIndex 1#30 recordState).fetch = .unsupported ∧ (atIndex 1#30 recordState).fetchRecord = some unknownRecord ∧
    ∃ m, (atIndex 1#30 recordState).monitor = some m ∧ m.unsupported = true := ⟨by decide, by decide, _, rfl, rfl⟩

theorem witness_Summary : exampleState.Inv ∧ ∃ m, exampleState.haltNow.summary = some m := ⟨inv_exampleState, _, rfl⟩

/-- A program of words has no record without its slots. -/
theorem slotsPresent_exampleState : exampleState.slotsPresent := by
  intro r hr
  simp [exampleState] at hr

theorem witness_Ports :
    atSw.slotsPresent ∧ atSw.runState = .running ∧ atSw.fetch = .instr (.sw 10#5 28#5 0#32) ∧
    (atIndex 4#30 exampleState).fetch = .instr (.lw 11#5 28#5 0#32) ∧
    ((atIndex 4#30 exampleState).ports false).dmemRe = true ∧ atSw.pc.toNat / 4 < atSw.program.length :=
  ⟨slotsPresent_exampleState, rfl, by decide, by decide, by decide, by decide⟩
theorem witness_Ports_idle : (exampleState.ports false).dmemWe = false ∧ (exampleState.ports false).dmemRe = false := by
  decide

/-- R8: in a `sw` cycle `dmem_rdata` is the cell at `dmem_addr` before the edge, `dmem_wdata` the value of `rt`. -/
theorem test_ports_of_sw :
    ((atSw.memWrite 0x10008000#32 7#32).ports false).dmemAddr = some 0x10008000#32 ∧
    ((atSw.memWrite 0x10008000#32 7#32).ports false).dmemRdata = some 7#32 ∧
    ((atSw.memWrite 0x10008000#32 7#32).ports false).dmemWdata = some 8#32 := by decide
/-- R230: on an edge with `rst = 1` no cycle is performed. -/
theorem test_ports_of_reset_edge :
    (atSw.ports true).dmemWe = false ∧ (atSw.ports true).monitor = none ∧ (atSw.ports true).imemAddr = 0x0C#32 := by decide
/-- R26, D14: the codes of the run states. -/
theorem test_runState_codes :
    (atSw.ports false).runState = 0#2 ∧ (atSw.haltNow.ports false).runState = 1#2 ∧
    ((atSw.raiseStop .exhausted).ports false).runState = 2#2 ∧
    ((atSw.raiseStop .labelError).ports false).runState = 3#2 := by decide

end Sys2Proof.Tests
end

section
/-! SUPPORT. The proofs of the statements about the data memory (spec/20_memory.md R50, R60). -/

namespace Sys2Proof.Machine

/-! ## Reads -/

theorem Memory.read_of_cell_some {m : Memory} {a v : Word} (h : m.cell a = some v) : m.read a = v := by
  simp [Memory.read, h]

/-- Outside `dom(mem)` the cell is absent. -/
theorem State.isStored_eq_false_iff (s : State) (a : Word) : s.isStored a = false ↔ s.mem.cell a = none :=
  Option.isSome_eq_false_iff.trans Option.isNone_iff_eq_none

theorem State.memRead_of_not_stored {s : State} {a : Word} (h : s.isStored a = false) : s.memRead a = 0#32 :=
  Memory.read_of_cell_none ((s.isStored_eq_false_iff a).mp h)

theorem exec_lw (rt rs : Reg) (imm : Word) (s : State) :
    exec (.lw rt rs imm) s = .next (s.writeBack rt (s.memRead (effectiveAddress rs imm s))) := rfl

/-! ## The program store under stores and runs -/

/-- A fetch reads the program store and the PC alone. -/
theorem State.fetch_of_program_pc_eq {s t : State} (hprogram : t.program = s.program) (hpc : t.pc = s.pc) :
    t.fetch = s.fetch := by
  simp only [State.fetch, State.entry, State.index, hprogram, hpc]

@[simp] theorem State.fetch_memWrite (s : State) (a v : Word) : (s.memWrite a v).fetch = s.fetch :=
  State.fetch_of_program_pc_eq (s.memWrite_program a v) (s.memWrite_pc a v)

theorem SameParameters.refl (s : State) : SameParameters s s := ⟨rfl, rfl⟩

theorem SameParameters.trans {s t u : State} (hst : SameParameters s t) (htu : SameParameters t u) :
    SameParameters s u :=
  ⟨htu.1.trans hst.1, htu.2.trans hst.2⟩

theorem sameParameters_of_step {s t : State} (h : step s = .next t) : SameParameters s t :=
  ⟨(step_cases h).program_eq, (step_cases h).labels_eq⟩

/-- The parameters of the run are the same after a run of any length. -/
theorem sameParameters_of_run {s t : State} {n : Nat} (h : Sys2Proof.core.run n s = .next t) : SameParameters s t :=
  run_induction (P := SameParameters s) (fun _ _ hs hstep => hs.trans (sameParameters_of_step hstep)) n (.refl s) h

/-! ## The statements -/

/-- Settles O7: by the rules of a read inside and outside `dom(mem)`; `lw` only writes its register back. -/
theorem memReadGivesTheCellOrZero : Obligations.MemReadGivesTheCellOrZero := by
  intro s a
  refine ⟨State.memRead_of_not_stored, fun v => Memory.read_of_cell_some, fun rt rs imm => ?_⟩
  exact ⟨_, exec_lw rt rs imm s, State.writeBack_mem .., State.writeBack_runState ..⟩

/-- Settles O40: a fetch reads nothing that a store changes, and every step of a run keeps the parameters. -/
theorem storesNeverChangeTheProgram : Obligations.StoresNeverChangeTheProgram :=
  ⟨State.fetch_memWrite, fun _ _ _ => sameParameters_of_run⟩

end Sys2Proof.Machine
end

section
/-! SUPPORT. The proof of the statement about immediates (spec/30_encoding.md R80). -/

namespace Sys2Proof

/-! ## Extensions, bit by bit -/

theorem getLsbD_low16 (v : Word) (i : Nat) : (low16 v).getLsbD i = (decide (i < 16) && v.getLsbD i) :=
  BitVec.getLsbD_setWidth ..

theorem getLsbD_zext16 (v : Imm16) {i : Nat} (hi : i < 32) : (zext16 v).getLsbD i = v.getLsbD i := by
  simp [zext16, hi]

theorem getLsbD_sext16 (v : Imm16) {i : Nat} (hi : i < 32) :
    (sext16 v).getLsbD i = if i < 16 then v.getLsbD i else v.getLsbD 15 := by
  rw [sext16, BitVec.getLsbD_signExtend, BitVec.msb_eq_getLsbD_last]
  simp [hi]

/-! ## The families of the decoder's operations -/

theorem rtypeOp_family {fn : BitVec 6} {op : Op} (h : rtypeOp fn = some op) : op.family = .rtype := by
  unfold rtypeOp at h
  split_ifs at h <;> cases h <;> rfl

theorem shiftOp_family {fn : BitVec 6} {op : Op} (h : shiftOp fn = some op) : op.family = .shift := by
  unfold shiftOp at h
  split_ifs at h <;> cases h <;> rfl

theorem branchOp_family {opc : BitVec 6} {op : Op} (h : branchOp opc = some op) :
    op.family = .beq ∨ op.family = .bne := by
  unfold branchOp at h
  split_ifs at h <;> cases h
  · exact .inl rfl
  · exact .inr rfl

/-- No record of a word of opcode 0 is of the ITYPE family. -/
theorem specialRecord_family_ne_itype (w : Word) : (specialRecord w).op.family ≠ .itype := by
  unfold specialRecord
  split
  next op hop =>
    split
    · simp [rtypeOp_family hop]
    · exact nofun
  split
  next op hop =>
    split
    · simp [shiftOp_family hop]
    · exact nofun
  exact nofun

/-- The record of an ITYPE word holds the zero-extended field: of the decoder's branches only the one of `itypeOp` answers
an operation of that family (R80, R89). -/
theorem decodeRecord_imm_of_itype {k : Index} {w : Word} :
    (decodeRecord k w).op.family = .itype → (decodeRecord k w).imm = zext16 (imm16Of w) := by
  unfold decodeRecord
  split
  · exact fun h => absurd h (specialRecord_family_ne_itype w)
  split
  · exact fun _ => rfl
  split
  · exact nofun
  split
  · exact nofun
  split
  next op hop => obtain h | h := branchOp_family hop <;> simp [h]
  split
  · exact nofun
  · exact nofun

end Sys2Proof

namespace Sys2Proof.Machine

/-! ## The operand of an ITYPE cycle -/

theorem getLsbD_extendFor_zero {op : Op} (hop : op ∈ [Op.andi, .ori]) (imm : Word) {i : Nat} (hi : i < 32) :
    (extendFor op imm).getLsbD i = (decide (i < 16) && imm.getLsbD i) := by
  have h : extendFor op imm = zext16 (low16 imm) := by
    simp only [List.mem_cons, List.not_mem_nil, or_false] at hop
    obtain rfl | rfl := hop <;> rfl
  rw [h, getLsbD_zext16 _ hi, getLsbD_low16]

theorem getLsbD_extendFor_sign {op : Op} (hop : op ∈ [Op.addi, .addiu, .slti, .sltiu]) (imm : Word) {i : Nat}
    (hi : i < 32) : (extendFor op imm).getLsbD i = if i < 16 then imm.getLsbD i else imm.getLsbD 15 := by
  have h : extendFor op imm = sext16 (low16 imm) := by
    simp only [List.mem_cons, List.not_mem_nil, or_false] at hop
    obtain rfl | rfl | rfl | rfl := hop <;> rfl
  rw [h, getLsbD_sext16 _ hi, getLsbD_low16, getLsbD_low16]
  split <;> simp [*]

/-- A pair of operands is there exactly when both of them are. -/
theorem operandPair_eq_some_iff {p q : Option Word} {o : Operands} :
    operandPair p q = some o ↔ p = some o.p ∧ q = some o.q := by
  obtain ⟨x, y⟩ := o
  cases p <;> cases q <;> simp [operandPair]

theorem recordOperands_of_itype {r : Record} (h : r.op.family = .itype) (a b : Option Word) :
    recordOperands r a b = operandPair a (some (extendFor r.op r.imm)) := by
  simp only [recordOperands, h]

/-! ## The meanings of the ITYPE instructions -/

section IType
variable (rt rs : Reg) (v : Imm16) (s : State)

theorem exec_addi : exec (.addi rt rs v) s = .next (s.writeBack rt (alu .add (s.reg rs) (sext16 v)).wb) := rfl
theorem exec_addiu : exec (.addiu rt rs v) s = .next (s.writeBack rt (alu .add (s.reg rs) (sext16 v)).wb) := rfl
theorem exec_slti : exec (.slti rt rs v) s = .next (s.writeBack rt (alu .slt (s.reg rs) (sext16 v)).wb) := rfl
theorem exec_sltiu : exec (.sltiu rt rs v) s = .next (s.writeBack rt (alu .sltu (s.reg rs) (sext16 v)).wb) := rfl
theorem exec_andi : exec (.andi rt rs v) s = .next (s.writeBack rt (alu .and (s.reg rs) (zext16 v)).wb) := rfl
theorem exec_ori : exec (.ori rt rs v) s = .next (s.writeBack rt (alu .or (s.reg rs) (zext16 v)).wb) := rfl

end IType

/-! ## The statement -/

/-- Settles O18: bit by bit through `low16` and the two extensions; the record's cycle, the word level's decoder and the six
meanings each by the lemma that says what they use. -/
theorem immediatesAreExtendedByOperation : Obligations.ImmediatesAreExtendedByOperation := by
  refine ⟨fun imm i hi => ⟨fun op hop => getLsbD_extendFor_zero hop imm hi,
    fun op hop => getLsbD_extendFor_sign hop imm hi⟩, ?_, fun k w => decodeRecord_imm_of_itype, ?_⟩
  · intro r a b o hfamily ho
    rw [recordOperands_of_itype hfamily] at ho
    obtain ⟨-, hq⟩ := operandPair_eq_some_iff.mp ho
    exact (Option.some.inj hq).symm
  · intro rt rs imm s
    exact ⟨exec_addi .., exec_addiu .., exec_slti .., exec_sltiu .., exec_andi .., exec_ori ..⟩

end Sys2Proof.Machine
end

section
/-! SUPPORT. The proofs of the statements about the ALU (spec/40_cycle_control_alu.md R121 to R123, R126). -/

namespace Sys2Proof.Machine

/-! ## The results as arithmetic on the operands' values -/

/-- Subtraction of words is subtraction of their unsigned values, wrapped. -/
theorem toNat_sub_eq_emod (p q : Word) : ((p - q).toNat : Int) = ((p.toNat : Int) - q.toNat) % 2 ^ 32 := by
  rw [BitVec.toNat_sub]
  omega

theorem toNat_shiftLeft_shiftAmount (p q : Word) :
    (p <<< shiftAmount q).toNat = p.toNat * 2 ^ (q.toNat % 32) % 2 ^ 32 := by
  rw [BitVec.toNat_shiftLeft, Nat.shiftLeft_eq, shiftAmount_eq_mod]

theorem toNat_ushiftRight_shiftAmount (p q : Word) :
    (p >>> shiftAmount q).toNat = p.toNat / 2 ^ (q.toNat % 32) := by
  rw [BitVec.toNat_ushiftRight, Nat.shiftRight_eq_div_pow, shiftAmount_eq_mod]

/-! ## Which instructions shift -/

theorem family_of_aluFnOf_shift {op : Op} (h : aluFnOf op = some .sll ∨ aluFnOf op = some .srl) :
    op.family = .shift := by
  cases op with
  | sll | srl => rfl
  | _ => simp [aluFnOf] at h

theorem recordOperands_of_shift {r : Record} (h : r.op.family = .shift) (a b : Option Word) :
    recordOperands r a b = operandPair b (some r.imm) := by
  simp only [recordOperands, h]

/-! ## One meaning for two mnemonics -/

theorem exec_add_eq_exec_addu (rd rs rt : Reg) (s : State) : exec (.add rd rs rt) s = exec (.addu rd rs rt) s := rfl

theorem exec_addi_eq_exec_addiu (rt rs : Reg) (v : Imm16) (s : State) :
    exec (.addi rt rs v) s = exec (.addiu rt rs v) s :=
  (exec_addi rt rs v s).trans (exec_addiu rt rs v s).symm

/-! ## The statements -/

/-- Settles O17: the shift amount is the operand modulo 32, and a shift by it is a product or a quotient by a power of 2;
the two shift functions belong to the SHIFT family, whose second operand is the literal. -/
theorem aluShiftsAreLogical : Obligations.AluShiftsAreLogical := by
  refine ⟨fun p q => ⟨toNat_shiftLeft_shiftAmount p q, rfl, toNat_ushiftRight_shiftAmount p q, rfl, fun hq => ?_⟩,
    fun op => family_of_aluFnOf_shift, fun r a b o hfamily ho => ?_⟩
  · have hzero : shiftAmount q = 0 := (shiftAmount_eq_mod q).trans hq
    simp [hzero]
  · rw [recordOperands_of_shift hfamily] at ho
    obtain ⟨-, hq⟩ := operandPair_eq_some_iff.mp ho
    exact (Option.some.inj hq).symm

/-- Settles O13: addition of words wraps, and `add` and `addu`, `addi` and `addiu` have one meaning each. -/
theorem aluAdditionWraps : Obligations.AluAdditionWraps :=
  ⟨fun p q => ⟨BitVec.toNat_add p q, rfl⟩, by decide, exec_add_eq_exec_addu, exec_addi_eq_exec_addiu,
    by decide, by decide⟩

/-- Settles O14: by the wrapped difference of the unsigned values. -/
theorem aluSubtractionWraps : Obligations.AluSubtractionWraps :=
  ⟨fun p q => ⟨toNat_sub_eq_emod p q, rfl⟩, by decide, by decide⟩

/-- Settles O15: each output bit by the library's rule for the operation. -/
theorem aluBitwiseOperations : Obligations.AluBitwiseOperations := by
  refine ⟨fun p q i hi => ⟨BitVec.getLsbD_and, BitVec.getLsbD_or, ?_⟩, fun p q => ⟨rfl, rfl, rfl⟩, fun p => ?_⟩
  · simp [hi]
  · simp

end Sys2Proof.Machine
end

section
/-! SUPPORT. The proofs of the statements about control flow and about the stops inside a cycle
(spec/40_cycle_control_alu.md R112, R114). -/

namespace Sys2Proof.Machine

/-! ## The frame of an instruction, by its control vector -/

theorem SameRegs.of_regs_eq {s t : State} (h : t.regs = s.regs) : SameRegs s t := State.reg_of_regs_eq h

/-- Without `regWrite` no register changes. -/
theorem Effect.regs_eq {i : Instr} {s t : State} (h : Effect i s t) (hw : (ctrl i.family).regWrite = false) :
    t.regs = s.regs := by
  cases h with
  | wrote _ _ regWrite => simp [hw] at regWrite
  | halted _ h | stored _ _ _ _ h | fellThrough _ h | jumped _ _ _ _ h | labelError _ _ _ h => simp [h]

/-- Without `memWrite` the data memory is as it was. -/
theorem Effect.mem_eq {i : Instr} {s t : State} (h : Effect i s t) (hm : (ctrl i.family).memWrite = false) :
    t.mem = s.mem := by
  cases h with
  | stored _ _ _ isSw => subst isSw; cases hm
  | wrote _ _ _ _ h | halted _ h | fellThrough _ h | jumped _ _ _ _ h | labelError _ _ _ h => simp [h]

/-- The stops an instruction can raise: only an `sll` halts, and both stops have their one exact effect. -/
theorem Effect.runState_cases {i : Instr} {s t : State} (h : Effect i s t) :
    t.runState = s.runState ∨ (i.op = .sll ∧ t = s.haltNow) ∨ t = s.raiseStop .labelError := by
  cases h with
  | halted isSll h => exact .inr (.inl ⟨isSll, h⟩)
  | labelError _ _ _ h => exact .inr (.inr h)
  | wrote _ _ _ _ h | stored _ _ _ _ h | fellThrough _ h | jumped _ _ _ _ h => exact .inl (by simp [h])

/-! ## The control-flow operations -/

theorem op_of_controlFlow {op : Op} (h : op.family = .beq ∨ op.family = .bne ∨ op.family = .jump) :
    op = .beq ∨ op = .bne ∨ op = .j := by
  cases op with
  | beq | bne | j => simp
  | _ => simp [Op.family] at h

/-- The control-flow rows of the tables of R115 and R120. -/
theorem tables_of_controlFlow {op : Op} (h : op.family = .beq ∨ op.family = .bne ∨ op.family = .jump) :
    aluFnOf op = none ∧ (ctrl op.family).regWrite = false ∧ (ctrl op.family).memWrite = false ∧ op ≠ .sll := by
  obtain rfl | rfl | rfl := op_of_controlFlow h <;> decide

theorem recordAlu_of_aluFnOf_none {r : Record} (h : aluFnOf r.op = none) (a b : Option Word) :
    recordAlu r a b = none := by
  simp only [recordAlu, h]

theorem isHaltRecord_of_op_ne_sll {r : Record} (h : r.op ≠ .sll) : isHaltRecord r = false := by
  simp [isHaltRecord, h]

/-! ## How a running step can end -/

/-- A step of a running machine runs on, or ends in exactly one way for each of the three stops. -/
theorem StepEffect.runState_cases {s t : State} (h : StepEffect s t) (hr : s.runState = .running) :
    t.runState = .running ∨ t = s.countCycle.haltNow ∨ t = s.countCycle.raiseStop .labelError ∨
    (s.fetch = .pastEnd ∧ t = s.raiseStop .exhausted) := by
  cases h with
  | stopped notRunning => exact absurd hr notRunning
  | exhausted _ fetch h => exact .inr (.inr (.inr ⟨fetch, h⟩))
  | passedOver _ _ h => exact .inl (by simp [h, hr])
  | ran i _ _ effect =>
    obtain hrun | ⟨-, hhalt⟩ | hlabel := effect.runState_cases
    · exact .inl (hrun.trans hr)
    · exact .inr (.inl hhalt)
    · exact .inr (.inr (.inl hlabel))

/-! ## The statements -/

/-- Settles O30: the control vector of the three families writes nothing, so neither register nor cell changes; the run
state by the stops an instruction can raise, of which the halt belongs to `sll` alone. -/
theorem controlFlowLeavesTheCycleAtStepFive : Obligations.ControlFlowLeavesTheCycleAtStepFive := by
  refine ⟨fun i s hfamily => ?_, fun r a b hfamily => ?_, branchEqual_iff⟩
  · obtain ⟨halu, hregWrite, hmemWrite, hnotSll⟩ := tables_of_controlFlow hfamily
    obtain ⟨t, hexec, effect⟩ := exec_effect i s
    refine ⟨t, hexec, .of_regs_eq (effect.regs_eq hregWrite), .of_mem_eq (effect.mem_eq hmemWrite), ?_, halu⟩
    obtain hrun | ⟨isSll, -⟩ | hlabel := effect.runState_cases
    · exact .inl hrun
    · exact absurd isSll hnotSll
    · exact .inr (by simp [hlabel])
  · obtain ⟨halu, -, -, hnotSll⟩ := tables_of_controlFlow hfamily
    exact ⟨recordAlu_of_aluFnOf_none halu a b, isHaltRecord_of_op_ne_sll hnotSll⟩

/-- Settles O37: by the four ways in which a running step can end; each stop is one update of the state. -/
theorem cycleIsAllOrNothing : Obligations.CycleIsAllOrNothing := by
  intro s t hr h
  obtain hrun | rfl | rfl | ⟨hfetch, rfl⟩ := (step_cases h).runState_cases hr
  · simp [hrun]
  · exact ⟨nofun, fun _ => ⟨.of_regs_eq rfl, .of_mem_eq rfl, rfl, rfl⟩, nofun⟩
  · exact ⟨fun _ => ⟨.of_regs_eq rfl, .of_mem_eq rfl, rfl, rfl⟩, nofun, nofun⟩
  · exact ⟨nofun, nofun, fun _ => ⟨hfetch, rfl⟩⟩

end Sys2Proof.Machine
end

section
/-! SUPPORT. The proofs of the statements about the monitor record (spec/46_monitor.md R192, R194). -/

namespace Sys2Proof.Machine

/-- The monitor record, where there is one, is that of the cycle of the record at the PC. -/
theorem State.monitor_eq_recordOfCycle {s t : State} {m : MonitorRecord} (h : step s = .next t)
    (hm : s.monitor = some m) : ∃ r, s.runState = .running ∧ s.fetchRecord = some r ∧ m = recordOfCycle r s t := by
  obtain ⟨r, t', hrunning, hfetch, hstep, hrecord⟩ := State.monitor_cases hm
  rw [h] at hstep
  cases hstep
  exact ⟨r, hrunning, hfetch, hrecord⟩

/-- The value read through a slot that names register 0. -/
theorem map_reg_of_slot_zero {slot : Option Reg} (h : slot = some 0#5) (t : State) :
    slot.map t.reg = some 0x00000000#32 := by
  simp [h]

/-- A running step that ends in `Halted` or `LabelError` writes no register (R131, R194). -/
theorem StepEffect.sameRegs_of_stop {s t : State} (h : StepEffect s t) (hr : s.runState = .running)
    (hstop : t.runState = .halted ∨ t.runState = .labelError) : SameRegs s t := by
  obtain hrun | rfl | rfl | ⟨-, rfl⟩ := h.runState_cases hr
  · simp [hrun] at hstop
  · exact .of_regs_eq rfl
  · exact .of_regs_eq rfl
  · simp at hstop

/-- Settles O56: the monitor record takes its registers from `operandSlots` of the record at the PC, whose table is read off
family by family. -/
theorem monitorOperandSlots : Obligations.MonitorOperandSlots := by
  intro s r m hfetch hm
  obtain ⟨r', t, -, hfetch', -, rfl⟩ := State.monitor_cases hm
  cases hfetch.symm.trans hfetch'
  show operandSlots r = _
  unfold operandSlots
  cases r.op.family <;> rfl

/-- Settles O57: the record reads its slots in the state after the cycle, where register 0 reads 0 and a stopping cycle has
left the register file as it was. -/
theorem monitorValuesAreThoseAfterTheCycle : Obligations.MonitorValuesAreThoseAfterTheCycle := by
  intro s t m h hm
  obtain ⟨r, hrunning, -, rfl⟩ := State.monitor_eq_recordOfCycle h hm
  refine ⟨⟨rfl, rfl, rfl⟩, fun hz => map_reg_of_slot_zero hz t, fun hz => map_reg_of_slot_zero hz t,
    fun hz => map_reg_of_slot_zero hz t, fun hstop => ?_⟩
  have hreg : t.reg = s.reg := funext ((step_cases h).sameRegs_of_stop hrunning hstop)
  rw [← hreg]
  exact ⟨rfl, rfl, rfl⟩

end Sys2Proof.Machine
end

section
/-! SUPPORT. The invariant under every step, and runs step by step (spec/10_state.md R22, R24; spec/20_memory.md R54, R57).
The proofs of the statements about reset, steps and the data memory. -/

namespace Sys2Proof.Machine

/-! ## The PC and the instruction index -/

theorem pcOfIndex_toNat (x : Index) : (pcOfIndex x).toNat = 4 * x.toNat := by
  have h : (pcOfIndex x).toNat = x.toNat * 2 ^ 2 + 0 := toNat_append_add x 0#2
  omega

theorem pcOfIndex_eq_ofNat (x : Index) : pcOfIndex x = BitVec.ofNat 32 (4 * x.toNat) := by
  rw [← pcOfIndex_toNat, BitVec.ofNat_toNat, BitVec.setWidth_eq]

theorem State.index_toNat (s : State) : s.index.toNat = s.pc.toNat / 4 := by
  simp only [State.index, BitVec.extractLsb'_toNat, Nat.shiftRight_eq_div_pow]
  omega

/-! ## The invariant under each update -/

section Inv
variable {s : State}

theorem State.Inv.advancePc (h : s.Inv) : s.advancePc.Inv where
  slotZero := h.slotZero
  pcAligned := by
    have := h.pcAligned
    simp only [State.advancePc_pc, BitVec.toNat_add, BitVec.toNat_ofNat]
    omega
  memCanonical := h.memCanonical
  programBound := h.programBound

theorem State.Inv.setReg (h : s.Inv) (d : Reg) (v : Word) : (s.setReg d v).Inv where
  slotZero := (s.setReg_slotZero d v).trans h.slotZero
  pcAligned := by simpa using h.pcAligned
  memCanonical := by simpa using h.memCanonical
  programBound := by simpa using h.programBound

theorem State.Inv.memWrite (h : s.Inv) (a v : Word) : (s.memWrite a v).Inv :=
  ⟨h.slotZero, h.pcAligned, Memory.write_wf a v h.memCanonical, h.programBound⟩

theorem State.Inv.jumpTo (h : s.Inv) (x : Index) : (s.jumpTo x).Inv :=
  ⟨h.slotZero, by simp [pcOfIndex_toNat], h.memCanonical, h.programBound⟩

theorem State.Inv.raiseStop (h : s.Inv) (x : RunState) : (s.raiseStop x).Inv :=
  ⟨h.slotZero, h.pcAligned, h.memCanonical, h.programBound⟩

theorem State.Inv.countCycle (h : s.Inv) : s.countCycle.Inv :=
  ⟨h.slotZero, h.pcAligned, h.memCanonical, h.programBound⟩

end Inv

/-- Every effect of an instruction is made of updates that keep the invariant. -/
theorem Effect.inv {i : Instr} {s t : State} (h : Effect i s t) (hs : s.Inv) : t.Inv := by
  cases h with
  | wrote dest v _ _ h => subst h; exact (hs.setReg dest v).advancePc
  | halted _ h => subst h; exact (hs.raiseStop _).advancePc
  | stored _ _ _ _ h => subst h; exact (hs.memWrite _ _).advancePc
  | fellThrough _ h => subst h; exact hs.advancePc
  | jumped _ x _ _ h => subst h; exact hs.jumpTo x
  | labelError _ _ _ h => subst h; exact hs.raiseStop _

/-- Settles O3: by the cases of a step, each an update, or an effect of an instruction, that keeps the invariant. -/
theorem stepKeepsInvariant : Obligations.StepKeepsInvariant := by
  intro s t hs hstep
  cases step_cases hstep with
  | stopped _ h => subst h; exact hs
  | exhausted _ _ h => subst h; exact hs.raiseStop _
  | passedOver _ _ h => subst h; exact hs.countCycle.advancePc
  | ran _ _ _ effect => exact effect.inv hs.countCycle

/-! ## Reset -/

/-- Settles O1: register by register; the other fields are those of `State.reset`. -/
theorem resetGivesTheStatedValues : Obligations.ResetGivesTheStatedValues :=
  ⟨by decide, rfl, fun _ => ⟨rfl, rfl⟩, rfl, rfl⟩

/-- Settles O2. -/
theorem resetSatisfiesInvariant : Obligations.ResetSatisfiesInvariant :=
  ⟨by decide, by decide, Memory.empty_wf, Nat.zero_le _⟩

/-- The invariant right after reset depends on the parameters by the length of the program alone. -/
theorem State.inv_reset_with {program : List Entry} (labels : List (String × Index))
    (h : program.length ≤ Config.maxProgram) :
    ({ State.reset with program := program, labels := labels } : State).Inv where
  slotZero := resetSatisfiesInvariant.slotZero
  pcAligned := resetSatisfiesInvariant.pcAligned
  memCanonical := resetSatisfiesInvariant.memCanonical
  programBound := h

/-- Settles O6: the reset edge is the reset state with the parameters kept. -/
theorem resetEdgeRestoresTheResetState : Obligations.ResetEdgeRestoresTheResetState := by
  refine fun s => ⟨⟨s.resetEdge, rfl, .of_regs_eq rfl, rfl, .of_mem_eq rfl, ⟨rfl, rfl⟩, ⟨rfl, rfl⟩, ?_⟩, rfl⟩
  exact State.inv_reset_with s.labels

/-! ## Runs, from their first step on -/

/-- The inversion of a run of one step more. -/
theorem run_succ_cases {s t : State} {n : Nat} (h : Sys2Proof.core.run (n + 1) s = .next t) :
    ∃ u, step s = .next u ∧ Sys2Proof.core.run n u = .next t := by
  cases hstep : Sys2Proof.core.step s with
  | next u => exact ⟨u, hstep, by simpa only [Host.Core.run, hstep] using h⟩
  | fault _ | refused _ => simp [Host.Core.run, hstep] at h

/-- A property that guarantees a next state and holds of it makes runs of any length possible. -/
theorem run_exists {P : State → Prop} (progress : ∀ s, P s → ∃ t, step s = .next t ∧ P t) :
    ∀ (n : Nat) {s : State}, P s → ∃ t, Sys2Proof.core.run n s = .next t ∧ P t
  | 0, s, hs => ⟨s, rfl, hs⟩
  | n + 1, s, hs => by
    obtain ⟨u, hstep, hu⟩ := progress s hs
    rw [run_succ_of_next n hstep]
    exact run_exists progress n hu

theorem run_of_not_running {s : State} (h : s.runState ≠ .running) : ∀ n, Sys2Proof.core.run n s = .next s
  | 0 => rfl
  | n + 1 => (run_succ_of_next n (step_of_not_running h)).trans (run_of_not_running h n)

theorem State.monitor_of_not_running {s : State} (h : s.runState ≠ .running) : s.monitor = none := by
  cases hm : s.monitor with
  | none => rfl
  | some m =>
    obtain ⟨_, _, hr, -⟩ := State.monitor_cases hm
    exact absurd hr h

/-- Settles O35: a step from a terminal state answers that state, and a record needs a running one. -/
theorem terminalStateIsFinal : Obligations.TerminalStateIsFinal :=
  fun _ n h => ⟨run_of_not_running h n, State.monitor_of_not_running h⟩

/-! ## What a step does to the data memory -/

theorem exec_sw (rt rs : Reg) (imm : Word) (s : State) :
    exec (.sw rt rs imm) s = .next (s.memWrite (effectiveAddress rs imm s) (s.reg rt)).advancePc := rfl

/-- A step leaves the memory as it was, or its cycle is a `sw` and it writes the one cell. -/
theorem StepEffect.mem_cases {s t : State} (h : StepEffect s t) :
    t.mem = s.mem ∨ ∃ rt rs imm, s.runState = .running ∧ s.fetch = .instr (.sw rt rs imm) ∧
      t.mem = s.mem.write (effectiveAddress rs imm s) (s.reg rt) := by
  cases h with
  | stopped _ h | exhausted _ _ h | passedOver _ _ h => exact .inl (by simp [h])
  | ran i running fetch effect =>
    cases effect with
    | stored rt rs imm isSw h => exact .inr ⟨rt, rs, imm, running, isSw ▸ fetch, by simp [h]⟩
    | wrote _ _ _ _ h | halted _ h | fellThrough _ h | jumped _ _ _ _ h | labelError _ _ _ h =>
      exact .inl (by simp [h])

/-- Settles O10: a write only adds to the stored-address set. -/
theorem storedSetOnlyGrows : Obligations.StoredSetOnlyGrows := by
  intro s t hstep a ha
  obtain hmem | ⟨rt, rs, imm, -, -, hmem⟩ := (step_cases hstep).mem_cases
  · simpa only [State.isStored, hmem] using ha
  · simp only [State.isStored, hmem, Memory.cell_write] at ha ⊢
    split
    · rfl
    · exact ha

/-- The cell at an address that the cycle does not store to, present or absent, is the same after the step. -/
theorem cell_eq_of_not_storesTo {s t : State} {a : Word} (hstep : step s = .next t) (h : ¬ s.storesTo a) :
    t.mem.cell a = s.mem.cell a := by
  obtain hmem | ⟨rt, rs, imm, hr, hfetch, hmem⟩ := (step_cases hstep).mem_cases
  · rw [hmem]
  · have hne : a ≠ effectiveAddress rs imm s := fun e => h ⟨hr, rt, rs, imm, hfetch, e.symm⟩
    rw [hmem, Memory.cell_write, if_neg hne]

/-- Settles O11: by the cell that a step leaves alone. -/
theorem onlyAStoreToTheAddressChangesItsCell : Obligations.OnlyAStoreToTheAddressChangesItsCell := by
  intro s t a hstep h
  have hcell := cell_eq_of_not_storesTo hstep h
  exact ⟨by simp only [State.memRead, Memory.read, hcell], by simp only [State.isStored, hcell]⟩

/-- A run none of whose cycles stores to an address leaves what it reads as. -/
theorem memRead_run_of_not_storesTo {a : Word} :
    ∀ {n : Nat} {s t : State}, (∀ m < n, ∀ u, Sys2Proof.core.run m s = .next u → ¬ u.storesTo a) →
      Sys2Proof.core.run n s = .next t → t.memRead a = s.memRead a
  | 0, _, _, _, hrun => by cases hrun; rfl
  | n + 1, s, t, hno, hrun => by
    obtain ⟨u, hstep, hrun⟩ := run_succ_cases hrun
    have hu : u.memRead a = s.memRead a :=
      (onlyAStoreToTheAddressChangesItsCell s u a hstep (hno 0 n.succ_pos s rfl)).1
    refine (memRead_run_of_not_storesTo (fun m hm v hv => hno (m + 1) (Nat.succ_lt_succ hm) v ?_) hrun).trans hu
    rw [run_succ_of_next m hstep, hv]

/-- Settles O12: the step of the `sw` puts the value in its cell, and the run leaves that cell alone. -/
theorem readReturnsTheMostRecentStore : Obligations.ReadReturnsTheMostRecentStore := by
  intro s s' t rt rs imm n hr hfetch hstep hno hrun
  rw [memRead_run_of_not_storesTo hno hrun]
  rw [step_of_instr hr hfetch, exec_sw] at hstep
  cases hstep
  exact (State.memRead_memWrite ..).trans (if_pos rfl)

/-- Settles O8: by the meanings of `sw` and `lw` and the rule of a read after a write. -/
theorem storeThenLoadReturnsTheValue : Obligations.StoreThenLoadReturnsTheValue := by
  intro s t rt rs rt' rs' imm imm' hsw haddr hne
  refine ⟨_, exec_lw rt' rs' imm' t, ?_⟩
  rw [State.reg_writeBack, if_pos ⟨rfl, hne⟩, haddr]
  cases (exec_sw rt rs imm s).symm.trans hsw
  exact (State.memRead_memWrite ..).trans (if_pos rfl)

/-! ## The canonical form of a memory -/

theorem cellsRiseFrom_cons {lo a : Nat} {v : Word} {rest : List Cell} :
    cellsRiseFrom lo ((a, v) :: rest) = true ↔ lo ≤ a ∧ a < 2 ^ 32 ∧ cellsRiseFrom (a + 1) rest = true := by
  simp [cellsRiseFrom, and_assoc]

/-- Rising cells stand at 32-bit addresses from the lower bound on. -/
theorem bounds_of_mem_of_rises {c : Cell} :
    ∀ {lo : Nat} {cells : List Cell}, cellsRiseFrom lo cells = true → c ∈ cells → lo ≤ c.1 ∧ c.1 < 2 ^ 32
  | lo, (a, v) :: rest, hrise, hc => by
    obtain ⟨hlo, hlt, hrest⟩ := cellsRiseFrom_cons.mp hrise
    obtain rfl | hc := List.mem_cons.mp hc
    · exact ⟨hlo, hlt⟩
    · have := bounds_of_mem_of_rises hrest hc
      omega

theorem pairwise_lt_of_rises :
    ∀ {lo : Nat} {cells : List Cell}, cellsRiseFrom lo cells = true → cells.Pairwise (fun c d => c.1 < d.1)
  | _, [], _ => .nil
  | _, (a, v) :: rest, hrise => by
    obtain ⟨-, -, hrest⟩ := cellsRiseFrom_cons.mp hrise
    exact .cons (fun d hd => (bounds_of_mem_of_rises hrest hd).1) (pairwise_lt_of_rises hrest)

/-- In rising cells the look-up of an address finds exactly the listed pair. -/
theorem mem_iff_cellAt_of_rises {a : Nat} {v : Word} :
    ∀ {lo : Nat} {cells : List Cell}, cellsRiseFrom lo cells = true → ((a, v) ∈ cells ↔ cellAt a cells = some v)
  | _, [], _ => by simp [cellAt]
  | _, (b, u) :: rest, hrise => by
    obtain ⟨-, -, hrest⟩ := cellsRiseFrom_cons.mp hrise
    rw [List.mem_cons, Prod.mk.injEq, mem_iff_cellAt_of_rises hrest, cellAt]
    by_cases hb : b = a
    · subst hb
      simp [cellAt_below (Nat.lt_succ_self b) hrest, eq_comm]
    · simp [hb, Ne.symm hb]

/-- Settles O9: rising lists with the same members are equal, and the cells say which pairs are members. -/
theorem canonicalMemoriesWithEqualCellsAreEqual : Obligations.CanonicalMemoriesWithEqualCellsAreEqual := by
  intro m n hm hn hcell
  have hmem : ∀ c, c ∈ m.cells ↔ c ∈ n.cells := by
    intro ⟨a, v⟩
    by_cases ha : a < 2 ^ 32
    · have h : cellAt a m.cells = cellAt a n.cells := by
        simpa [Memory.cell] using hcell (BitVec.ofNatLT a ha)
      rw [mem_iff_cellAt_of_rises hm, mem_iff_cellAt_of_rises hn, h]
    · exact ⟨fun h => absurd (bounds_of_mem_of_rises hm h).2 ha, fun h => absurd (bounds_of_mem_of_rises hn h).2 ha⟩
  have irrefl : Std.Irrefl fun c d : Cell => c.1 < d.1 := ⟨fun c => Nat.lt_irrefl c.1⟩
  have hcells : m.cells = n.cells := (pairwise_lt_of_rises hm).eq_of_mem_iff (pairwise_lt_of_rises hn) hmem
  cases m
  cases n
  exact congrArg Memory.mk hcells

/-! ## The final summary -/

theorem State.summary_eq_none_iff (s : State) : s.summary = none ↔ s.runState = .running := by
  unfold State.summary
  split <;> simp [*]

theorem State.summary_cases {s : State} {m : Summary} (h : s.summary = some m) :
    m = ⟨s.pc, s.registerValues, s.mem.cells, s.cycleCount, s.runState⟩ := by
  unfold State.summary at h
  split at h
  · cases h
  all_goals exact (Option.some.inj h).symm

theorem State.registerValues_getElem? (s : State) (r : Reg) : s.registerValues[r.toNat]? = some (s.reg r) := by
  have hr := r.isLt
  simp [State.registerValues, hr]

/-- A cell is there with the value `v` exactly when its address is stored and reads `v`. -/
theorem State.cell_eq_some_iff (s : State) (a v : Word) :
    s.mem.cell a = some v ↔ s.isStored a = true ∧ s.memRead a = v := by
  unfold State.isStored State.memRead Memory.read
  cases s.mem.cell a <;> simp

/-- Settles O59: the list of a canonical memory rises, and membership in it is the look-up of the cell. -/
theorem summaryListsTheStoredCells : Obligations.SummaryListsTheStoredCells := by
  refine fun s hs => ⟨s.summary_eq_none_iff, fun m hm => ?_⟩
  obtain rfl := State.summary_cases hm
  refine ⟨rfl, rfl, rfl, by simp [State.registerValues], s.registerValues_getElem?, s.registerValues_getElem? 0#5,
    pairwise_lt_of_rises hs.memCanonical, fun c hc => (bounds_of_mem_of_rises hs.memCanonical hc).2, fun a v => ?_⟩
  exact (mem_iff_cellAt_of_rises hs.memCanonical).trans (s.cell_eq_some_iff a v)

end Sys2Proof.Machine
end

section
/-! SUPPORT. The proofs of the statements about what each instruction does: its result, its completion and its frame
(spec/40_cycle_control_alu.md R115, R116, R124, R125; spec/41_rtype.md to 45_branch_jump.md). -/

namespace Sys2Proof.Machine

/-! ## The frames -/

/-- An instruction whose meaning is a write-back has the frame of one. -/
theorem writesRegister_of_exec {i : Instr} {dest : Reg} {v : State → Word}
    (h : ∀ s, exec i s = .next (s.writeBack dest (v s))) : WritesRegister i dest v := by
  intro s
  refine ⟨_, h s, fun r => s.reg_writeBack dest r (v s), s.writeBack_pc dest (v s), .of_mem_eq (s.writeBack_mem ..),
    ⟨s.writeBack_runState .., s.writeBack_cycleCount ..⟩, s.writeBack_program .., s.writeBack_labels ..⟩

/-- A write leaves every cell but its own as it was. -/
theorem State.sameMemoryBut_memWrite (s : State) (a v : Word) : SameMemoryBut a s (s.memWrite a v) :=
  ⟨fun b hb => (s.memRead_memWrite a b v).trans (if_neg hb), fun b hb => (s.isStored_memWrite a b v).trans (if_neg hb)⟩

theorem State.memRead_memWrite_same (s : State) (a v : Word) : (s.memWrite a v).memRead a = v :=
  (s.memRead_memWrite a a v).trans (if_pos rfl)

theorem State.isStored_memWrite_same (s : State) (a v : Word) : (s.memWrite a v).isStored a = true :=
  (s.isStored_memWrite a a v).trans (if_pos rfl)

/-! ## RTYPE and ITYPE -/

section RType
variable (rd rs rt : Reg) (s : State)

theorem exec_add : exec (.add rd rs rt) s = .next (s.writeBack rd (alu .add (s.reg rs) (s.reg rt)).wb) := rfl
theorem exec_addu : exec (.addu rd rs rt) s = .next (s.writeBack rd (alu .add (s.reg rs) (s.reg rt)).wb) := rfl
theorem exec_sub : exec (.sub rd rs rt) s = .next (s.writeBack rd (alu .sub (s.reg rs) (s.reg rt)).wb) := rfl
theorem exec_and : exec (.and rd rs rt) s = .next (s.writeBack rd (alu .and (s.reg rs) (s.reg rt)).wb) := rfl
theorem exec_or : exec (.or rd rs rt) s = .next (s.writeBack rd (alu .or (s.reg rs) (s.reg rt)).wb) := rfl
theorem exec_nor : exec (.nor rd rs rt) s = .next (s.writeBack rd (alu .nor (s.reg rs) (s.reg rt)).wb) := rfl
theorem exec_slt : exec (.slt rd rs rt) s = .next (s.writeBack rd (alu .slt (s.reg rs) (s.reg rt)).wb) := rfl
theorem exec_sltu : exec (.sltu rd rs rt) s = .next (s.writeBack rd (alu .sltu (s.reg rs) (s.reg rt)).wb) := rfl

end RType

section Results
variable (p q : Word)

theorem alu_add_wb_eq_ofNat : (alu .add p q).wb = BitVec.ofNat 32 (p.toNat + q.toNat) := by
  simp [BitVec.ofNat_add]

theorem alu_add_wb_eq_ofInt : (alu .add p q).wb = BitVec.ofInt 32 (p.toInt + q.toInt) := by
  simp [BitVec.ofInt_add]

theorem alu_sub_wb_eq_ofInt : (alu .sub p q).wb = BitVec.ofInt 32 (p.toInt - q.toInt) := by
  apply BitVec.eq_of_toInt_eq
  simp [BitVec.toInt_sub, BitVec.toInt_ofInt]

theorem alu_slt_wb : (alu .slt p q).wb = if p.toInt < q.toInt then 0x00000001#32 else 0x00000000#32 := by
  simp [boolWord_eq, lessSigned]

theorem alu_sltu_wb : (alu .sltu p q).wb = if p.toNat < q.toNat then 0x00000001#32 else 0x00000000#32 := by
  simp [boolWord_eq, lessUnsigned]

end Results

theorem sext16_toInt (v : Imm16) : (sext16 v).toInt = v.toInt := BitVec.toInt_signExtend_of_le (by decide)

theorem sext16_eq_ofInt (v : Imm16) : sext16 v = BitVec.ofInt 32 v.toInt := by
  rw [← sext16_toInt, BitVec.ofInt_toInt]

theorem zext16_eq_ofNat (v : Imm16) : zext16 v = BitVec.ofNat 32 v.toNat := by
  apply BitVec.eq_of_toNat_eq
  simp [zext16]

/-- Settles O16: the write-back of either function is its comparison, the output of both the wrapped difference. -/
theorem aluSetLessThanComparesExactly : Obligations.AluSetLessThanComparesExactly :=
  fun p q => ⟨toNat_sub_eq_emod p q, rfl, alu_slt_wb p q, alu_sltu_wb p q⟩

/-- Settles O19: each meaning is a write-back of an ALU result, which is the stated value. -/
theorem rTypeInstructionsWriteRd : Obligations.RTypeInstructionsWriteRd := by
  intro rd rs rt
  refine ⟨?_, ?_, ?_, ?_, ?_, ?_, ?_, ?_⟩ <;> refine writesRegister_of_exec fun s => ?_
  · rw [exec_add, alu_add_wb_eq_ofNat]
  · rw [exec_addu, alu_add_wb_eq_ofNat]
  · rw [exec_sub, alu_sub_wb_eq_ofInt]
  · rw [exec_and, alu_and]
  · rw [exec_or, alu_or]
  · rw [exec_nor, alu_nor]
  · rw [exec_slt, alu_slt_wb]
  · rw [exec_sltu, alu_sltu_wb]

/-- Settles O23: as for RTYPE, with the extended immediate as the second operand. -/
theorem iTypeInstructionsWriteRt : Obligations.ITypeInstructionsWriteRt := by
  intro rt rs v
  refine ⟨?_, ?_, ?_, ?_, ?_, ?_⟩ <;> refine writesRegister_of_exec fun s => ?_
  · rw [exec_addi, alu_add_wb_eq_ofInt, sext16_toInt]
  · rw [exec_addiu, alu_add_wb_eq_ofInt, sext16_toInt]
  · rw [exec_andi, alu_and, zext16_eq_ofNat]
  · rw [exec_ori, alu_or, zext16_eq_ofNat]
  · rw [exec_slti, alu_slt_wb, sext16_toInt]
  · rw [exec_sltiu, alu_sltu_wb, sext16_eq_ofInt]

/-! ## SHIFT and the halt sentinel -/

section Shift
variable {rd rt : Reg} {imm : Word} (s : State)

theorem exec_srl (rd rt : Reg) (imm : Word) :
    exec (.srl rd rt imm) s = .next (s.writeBack rd (alu .srl (s.reg rt) imm).wb) := rfl

theorem exec_sll_of_not_haltPattern (h : ¬ isHaltPattern rd rt imm = true) :
    exec (.sll rd rt imm) s = .next (s.writeBack rd (alu .sll (s.reg rt) imm).wb) := if_neg h

theorem exec_sll_of_haltPattern (h : isHaltPattern rd rt imm = true) :
    exec (.sll rd rt imm) s = .next s.haltNow := if_pos h

theorem exec_halt : exec .halt s = .next s.haltNow := rfl

end Shift

/-- Settles O20: the shifted value as a product or a quotient by a power of 2; `sll` off the halt pattern. -/
theorem shiftInstructionsWriteRd : Obligations.ShiftInstructionsWriteRd := by
  refine fun rd rt imm => ⟨fun hne => writesRegister_of_exec fun s => ?_, writesRegister_of_exec fun s => ?_⟩
  · have hvalue : s.reg rt <<< shiftAmount imm = BitVec.ofNat 32 ((s.reg rt).toNat * 2 ^ (imm.toNat % 32)) := by
      apply BitVec.eq_of_toNat_eq
      rw [toNat_shiftLeft_shiftAmount, BitVec.toNat_ofNat]
    rw [exec_sll_of_not_haltPattern s (mt isHaltPattern_iff.mp hne), alu_sll, hvalue]
  · have hvalue : s.reg rt >>> shiftAmount imm = BitVec.ofNat 32 ((s.reg rt).toNat / 2 ^ (imm.toNat % 32)) := by
      rw [← toNat_ushiftRight_shiftAmount, BitVec.ofNat_toNat, BitVec.setWidth_eq]
    rw [exec_srl, alu_srl, hvalue]

/-- Settles O21: both spellings run `haltNow`. -/
theorem haltSentinelHalts : Obligations.HaltSentinelHalts := by
  refine fun s => ⟨exec_sll_of_haltPattern s rfl, _, exec_halt s, rfl, rfl, rfl, ?_⟩
  exact ⟨.of_regs_eq rfl, .of_mem_eq rfl, rfl, rfl⟩

/-! ## LOAD and STORE -/

/-- Settles O24: the effective address is the wrapped sum, and a load is a write-back of the cell there. -/
theorem loadWordReadsOneCell : Obligations.LoadWordReadsOneCell := by
  intro rt rs imm
  refine writesRegister_of_exec fun s => ?_
  rw [exec_lw, effectiveAddress_eq, BitVec.ofNat_add, BitVec.ofNat_toNat, BitVec.ofNat_toNat, BitVec.setWidth_eq,
    BitVec.setWidth_eq]

/-- Settles O25: by the rules of a read after a write; the PC advance touches nothing else. -/
theorem storeWordWritesOneCell : Obligations.StoreWordWritesOneCell := by
  rintro rt rs imm s a rfl
  refine ⟨BitVec.toNat_add .., _, exec_sw rt rs imm s, s.memRead_memWrite_same .., s.isStored_memWrite_same ..,
    s.sameMemoryBut_memWrite .., .of_regs_eq rfl, rfl, ⟨rfl, rfl⟩, rfl, rfl⟩

/-! ## Branches and jumps -/

section Transfer
variable {i : Instr} {s : State}

theorem setsOnlyPc_of_jumpTo {x : Index} (h : exec i s = .next (s.jumpTo x)) :
    SetsOnlyPc i s (BitVec.ofNat 32 (4 * x.toNat)) :=
  ⟨_, h, pcOfIndex_eq_ofNat x, .of_regs_eq rfl, .of_mem_eq rfl, ⟨rfl, rfl⟩, rfl, rfl⟩

theorem setsOnlyPc_of_advancePc (h : exec i s = .next s.advancePc) : SetsOnlyPc i s (s.pc + 4#32) :=
  ⟨_, h, rfl, .of_regs_eq rfl, .of_mem_eq rfl, ⟨rfl, rfl⟩, rfl, rfl⟩

theorem stopsWithLabelError_of_raiseStop (h : exec i s = .next (s.raiseStop .labelError)) : StopsWithLabelError i s :=
  ⟨_, h, rfl, rfl, rfl, .of_regs_eq rfl, .of_mem_eq rfl, rfl, rfl⟩

variable {rs rt : Reg} (target : Target)

theorem exec_j : exec (.j target) s = .next (transfer target s) := rfl

theorem exec_beq_of_eq (h : s.reg rs = s.reg rt) : exec (.beq rs rt target) s = .next (transfer target s) := by
  simp [exec, execBeq, branchIf, branchEqual, h]

theorem exec_beq_of_ne (h : s.reg rs ≠ s.reg rt) : exec (.beq rs rt target) s = .next s.advancePc := by
  simp [exec, execBeq, branchIf, branchEqual, h]

theorem exec_bne_of_eq (h : s.reg rs = s.reg rt) : exec (.bne rs rt target) s = .next s.advancePc := by
  simp [exec, execBne, branchIf, branchEqual, h]

theorem exec_bne_of_ne (h : s.reg rs ≠ s.reg rt) : exec (.bne rs rt target) s = .next (transfer target s) := by
  simp [exec, execBne, branchIf, branchEqual, h]

end Transfer

/-- Settles O26: a condition that holds is a transfer, one that fails the PC advance. -/
theorem branchesSetThePc : Obligations.BranchesSetThePc := by
  refine fun rs rt target s => ⟨fun h => ⟨fun x hx => ?_, ?_⟩, fun h => ⟨fun x hx => ?_, ?_⟩⟩
  · exact setsOnlyPc_of_jumpTo (by rw [exec_beq_of_eq target h, transfer_of_resolved hx])
  · exact setsOnlyPc_of_advancePc (exec_bne_of_eq target h)
  · exact setsOnlyPc_of_jumpTo (by rw [exec_bne_of_ne target h, transfer_of_resolved hx])
  · exact setsOnlyPc_of_advancePc (exec_beq_of_ne target h)

/-- Settles O27: a jump is a transfer. -/
theorem jumpSetsThePc : Obligations.JumpSetsThePc :=
  fun target _ _ hx => setsOnlyPc_of_jumpTo (by rw [exec_j target, transfer_of_resolved hx])

/-- Settles O28: a transfer to an unresolved target is the stop, and the three instructions are transfers. -/
theorem unresolvedLabelStopsTheRun : Obligations.UnresolvedLabelStopsTheRun := by
  refine fun target s hn => ⟨?_, fun rs rt => ⟨fun h => ?_, fun h => ?_⟩⟩ <;>
    refine stopsWithLabelError_of_raiseStop ?_
  · rw [exec_j target, transfer_of_unresolved hn]
  · rw [exec_beq_of_eq target h, transfer_of_unresolved hn]
  · rw [exec_bne_of_ne target h, transfer_of_unresolved hn]

/-! ## The label table -/

theorem labelIndex_eq_none_iff {name : String} :
    ∀ {table : List (String × Index)}, labelIndex name table = none ↔ ∀ x, (name, x) ∉ table
  | [] => by simp [labelIndex]
  | (n, t) :: rest => by
    by_cases h : n = name
    · subst h
      simp only [labelIndex, if_true, reduceCtorEq, false_iff, not_forall, not_not]
      exact ⟨t, List.mem_cons_self⟩
    · simp [labelIndex, h, Ne.symm h, labelIndex_eq_none_iff]

theorem mem_of_labelIndex_eq_some {name : String} {x : Index} :
    ∀ {table : List (String × Index)}, labelIndex name table = some x → (name, x) ∈ table
  | (n, t) :: rest, h => by
    by_cases hn : n = name
    · subst hn
      obtain rfl : t = x := by simpa [labelIndex] using h
      exact List.mem_cons_self
    · exact List.mem_cons_of_mem _ (mem_of_labelIndex_eq_some (by simpa [labelIndex, hn] using h))

/-- The first entry with the name counts. -/
theorem labelIndex_append_cons {name : String} {x : Index} {later : List (String × Index)} :
    ∀ {earlier : List (String × Index)}, (∀ y, (name, y) ∉ earlier) →
      labelIndex name (earlier ++ (name, x) :: later) = some x
  | [], _ => if_pos rfl
  | (n, t) :: rest, h => by
    have hn : n ≠ name := fun e => h t (e ▸ List.mem_cons_self)
    have hrest : ∀ y, (name, y) ∉ rest := fun y hy => h y (List.mem_cons_of_mem _ hy)
    rw [List.cons_append, labelIndex, if_neg hn, labelIndex_append_cons hrest]

/-- Without duplicate names, no entry before the one with a name has that name. -/
theorem not_mem_earlier_of_nodup {name : String} {x : Index} {earlier later : List (String × Index)}
    (h : ((earlier ++ (name, x) :: later).map Prod.fst).Nodup) (y : Index) : (name, y) ∉ earlier := by
  intro hy
  rw [List.map_append, List.nodup_append] at h
  obtain ⟨-, -, hdisjoint⟩ := h
  exact hdisjoint name (List.mem_map_of_mem hy) name (by simp) rfl

/-- Settles O29: by the look-up in the table, which finds the first entry with the name. -/
theorem labelsResolveThroughTheTable : Obligations.LabelsResolveThroughTheTable := by
  refine fun s name => ⟨labelIndex_eq_none_iff, fun x => mem_of_labelIndex_eq_some, fun x hnodup hx => ?_,
    fun x earlier later htable hfirst => ?_⟩
  · obtain ⟨earlier, later, htable⟩ := List.append_of_mem hx
    rw [htable] at hnodup
    exact (congrArg (labelIndex name) htable).trans (labelIndex_append_cons (not_mem_earlier_of_nodup hnodup))
  · exact (congrArg (labelIndex name) htable).trans (labelIndex_append_cons hfirst)

/-! ## The control vector -/

/-- Settles O53. -/
theorem controlVectorTable : Obligations.ControlVectorTable :=
  ⟨rfl, rfl, rfl, rfl, rfl, rfl, rfl, rfl, rfl⟩

/-- The instructions that name a target are those with `jump` or `branch` in their vector. -/
theorem jump_or_branch_of_targetOf {i : Instr} {target : Target} (h : targetOf i = some target) :
    (ctrl i.family).jump = true ∨ (ctrl i.family).branch = true := by
  cases i with
  | j => exact .inl rfl
  | beq | bne => exact .inr rfl
  | _ => cases h

/-- Without `jump` and `branch` the PC advances. -/
theorem Effect.pc_eq {i : Instr} {s t : State} (h : Effect i s t) (hj : (ctrl i.family).jump = false)
    (hb : (ctrl i.family).branch = false) : t.pc = s.pc + 4#32 := by
  cases h with
  | jumped _ _ names | labelError _ names => simpa [hj, hb] using jump_or_branch_of_targetOf names
  | fellThrough branch => simp [hb] at branch
  | wrote _ _ _ _ h | halted _ h | stored _ _ _ _ h => simp [h]

/-- No register changes but the destination the instruction names. -/
theorem Effect.reg_eq_of_ne_destination {i : Instr} {s t : State} (h : Effect i s t) {r : Reg}
    (hr : destinationOf i ≠ some r) : t.reg r = s.reg r := by
  cases h with
  | wrote dest v _ names h =>
    have hne : r ≠ dest := fun e => hr (e ▸ names)
    rw [h, State.reg_writeBack, if_neg fun e => hne e.1]
  | halted _ h | stored _ _ _ _ h | fellThrough _ h | jumped _ _ _ _ h | labelError _ _ _ h =>
    exact State.reg_of_regs_eq (by simp [h]) r

/-- Only `sw` has `memWrite` in its vector. -/
theorem exists_sw_of_memWrite {i : Instr} (h : (ctrl i.family).memWrite = true) : ∃ rt rs imm, i = .sw rt rs imm := by
  cases i with
  | sw rt rs imm => exact ⟨rt, rs, imm, rfl⟩
  | _ => cases h

/-- Settles O54: by the effects of an instruction, and the meaning of `sw`. -/
theorem controlVectorSaysWhatChanges : Obligations.ControlVectorSaysWhatChanges := by
  intro i s t hexec
  have effect := exec_cases hexec
  refine ⟨fun h => .of_regs_eq (effect.regs_eq h), fun h => .of_mem_eq (effect.mem_eq h), effect.pc_eq,
    fun r => effect.reg_eq_of_ne_destination, fun h => ?_⟩
  obtain ⟨rt, rs, imm, rfl⟩ := exists_sw_of_memWrite h
  cases (exec_sw rt rs imm s).symm.trans hexec
  exact ⟨rt, rs, imm, rfl, s.isStored_memWrite_same .., s.memRead_memWrite_same .., s.sameMemoryBut_memWrite ..⟩

end Sys2Proof.Machine
end

section
/-! SUPPORT. The proofs of the statements about the encoding (spec/30_encoding.md R82, R84, R85, R88 to R94): the encoder
form by form, the word rebuilt from what was decoded, the rows of the opcode map, the record of a word. -/

namespace Sys2Proof

/-! ## When the encoder answers a word -/

theorem encodeShift_eq_some_iff {funct : BitVec 6} {rd rt : Reg} {imm w : Word} :
    encodeShift funct rd rt imm = some w ↔ shiftAmountOk imm = true ∧ rWord 0#5 rt rd (imm.setWidth 5) funct = w := by
  simp [encodeShift]

theorem encodeMem_eq_some_iff {opcode : BitVec 6} {rt rs : Reg} {imm w : Word} :
    encodeMem opcode rt rs imm = some w ↔ sext16 (low16 imm) = imm ∧ iWord opcode rs rt (low16 imm) = w := by
  simp [encodeMem]

/-- The index `t` is within the signed 16-bit reach of a branch at `k` (R84). -/
def BranchReaches (k t : Index) : Prop :=
  -32768 ≤ (t.toNat : Int) - (k.toNat + 1) ∧ (t.toNat : Int) - (k.toNat + 1) ≤ 32767

theorem encodeBranch_eq_some_iff {opcode : BitVec 6} {k : Index} {rs rt : Reg} {target : Target} {w : Word} :
    encodeBranch opcode k rs rt target = some w ↔ ∃ t, target = .resolved t ∧ BranchReaches k t ∧
      iWord opcode rs rt (BitVec.ofInt 16 ((t.toNat : Int) - (k.toNat + 1))) = w := by
  cases target with
  | label name => simp [encodeBranch]
  | resolved t => simp [encodeBranch, BranchReaches]

theorem encodeJump_eq_some_iff {k : Index} {target : Target} {w : Word} :
    encodeJump k target = some w ↔ ∃ t, target = .resolved t ∧
      t.extractLsb' 26 4 = (k + 1#30).extractLsb' 26 4 ∧ jWord (t.setWidth 26) = w := by
  cases target with
  | label name => simp [encodeJump]
  | resolved t => simp [encodeJump]

/-! ## Decoding what was encoded -/

theorem not_haltPattern_of_wellFormed {rd rt : Reg} {imm : Word} (h : (Instr.sll rd rt imm).wellFormed = true) :
    isHaltPattern rd rt imm = false := by
  cases hp : isHaltPattern rd rt imm with
  | false => rfl
  | true => simp [Instr.wellFormed, Instr.illFormed, hp] at h

/-- Settles O43: the fields of the word are the instruction's operands; the literal of a shift, the offset of a load or store
and the target of a transfer are rebuilt from their fields because they passed the encoder's check. -/
theorem decodeOfEncodeIsTheInstruction : Obligations.DecodeOfEncodeIsTheInstruction := by
  intro k i w hwf h
  cases i with
  | add | addu | sub | and | or | nor | slt | sltu =>
    cases h
    simp [decode, decodeSpecial, decodeRType]
  | addi | addiu | slti | sltiu | andi | ori =>
    cases h
    simp [decode]
  | halt => cases h; rfl
  | sll rd rt imm =>
    obtain ⟨hok, rfl⟩ := encodeShift_eq_some_iff.mp h
    simp [decode, decodeSpecial, decodeShift, decodeSll, zext5_setWidth hok, not_haltPattern_of_wellFormed hwf]
  | srl rd rt imm =>
    obtain ⟨hok, rfl⟩ := encodeShift_eq_some_iff.mp h
    simp [decode, decodeSpecial, decodeShift, zext5_setWidth hok]
  | lw rt rs imm | sw rt rs imm =>
    obtain ⟨himm, rfl⟩ := encodeMem_eq_some_iff.mp h
    simp [decode, himm]
  | beq rs rt target | bne rs rt target =>
    obtain ⟨t, rfl, ⟨lo, hi⟩, rfl⟩ := encodeBranch_eq_some_iff.mp h
    simp [decode, branchIndex_of_offset lo hi]
  | j target =>
    obtain ⟨t, rfl, hregion, rfl⟩ := encodeJump_eq_some_iff.mp h
    simp [decode, jumpIndex_of_region hregion]

/-! ## Which instructions have a word -/

theorem sext16_low16_eq_iff (imm : Word) : sext16 (low16 imm) = imm ↔ -32768 ≤ imm.toInt ∧ imm.toInt ≤ 32767 := by
  rw [← BitVec.toInt_inj, Machine.sext16_toInt]
  have hlow : (low16 imm).toInt = (imm.toInt).bmod (2 ^ 16) := by
    rw [low16, BitVec.toInt_setWidth, BitVec.toInt_eq_toNat_bmod, Int.bmod_bmod_of_dvd (by decide)]
  rw [hlow]
  refine ⟨fun h => ?_, fun ⟨lo, hi⟩ => Int.bmod_eq_of_le (by omega) (by omega)⟩
  rw [← h]
  have := Int.le_bmod (x := imm.toInt) (m := 2 ^ 16) (by decide)
  have := Int.bmod_lt (x := imm.toInt) (m := 2 ^ 16) (by decide)
  omega

theorem jumpRegion_iff (k t : Index) : t.extractLsb' 26 4 = (k + 1#30).extractLsb' 26 4 ↔
    t.toNat / 2 ^ 26 = (k.toNat + 1) % 2 ^ 30 / 2 ^ 26 := by
  rw [← BitVec.toNat_inj, BitVec.extractLsb'_toNat, BitVec.extractLsb'_toNat, Nat.shiftRight_eq_div_pow,
    Nat.shiftRight_eq_div_pow, BitVec.toNat_add]
  have := t.isLt
  simp only [BitVec.toNat_ofNat]
  omega

theorem shiftAmountOk_of_wellFormed_sll {rd rt : Reg} {imm : Word} (h : (Instr.sll rd rt imm).wellFormed = true) :
    shiftAmountOk imm = true := by
  by_contra hs
  simp [Instr.wellFormed, Instr.illFormed, not_haltPattern_of_wellFormed h, hs] at h

theorem shiftAmountOk_of_wellFormed_srl {rd rt : Reg} {imm : Word} (h : (Instr.srl rd rt imm).wellFormed = true) :
    shiftAmountOk imm = true := by
  by_contra hs
  simp [Instr.wellFormed, Instr.illFormed, hs] at h

/-- Settles O44: by the check of each form, which is the stated range. -/
theorem encodableInstructions : Obligations.EncodableInstructions := by
  intro k i hwf
  cases i with
  | add | addu | sub | and | or | nor | slt | sltu | addi | addiu | slti | sltiu | andi | ori | halt =>
    exact ⟨fun _ => trivial, fun _ => ⟨_, rfl⟩⟩
  | sll rd rt imm =>
    exact ⟨fun _ => trivial, fun _ => ⟨_, encodeShift_eq_some_iff.mpr ⟨shiftAmountOk_of_wellFormed_sll hwf, rfl⟩⟩⟩
  | srl rd rt imm =>
    exact ⟨fun _ => trivial, fun _ => ⟨_, encodeShift_eq_some_iff.mpr ⟨shiftAmountOk_of_wellFormed_srl hwf, rfl⟩⟩⟩
  | lw rt rs imm | sw rt rs imm => simp [encode, encodeMem_eq_some_iff, sext16_low16_eq_iff]
  | beq rs rt target | bne rs rt target => simp [encode, encodeBranch_eq_some_iff, BranchReaches]
  | j target => simp [encode, encodeJump_eq_some_iff, jumpRegion_iff]

/-! ## The word rebuilt from what was decoded -/

/-- The word an instruction was decoded from: the encoder's, but for a branch the offset is taken modulo `2^16`, because the
decoder's target wraps around the program store (R84). -/
def wordOf (k : Index) : Instr → Option Word
  | .beq rs rt (.resolved t) => some (iWord 0x04#6 rs rt ((t - (k + 1#30)).setWidth 16))
  | .bne rs rt (.resolved t) => some (iWord 0x05#6 rs rt ((t - (k + 1#30)).setWidth 16))
  | i => encode k i

theorem rWord_eq_of_fields {w : Word} {rs shamt : BitVec 5} {funct : BitVec 6} (opc : opcodeOf w = 0x00#6)
    (hrs : rsOf w = rs) (hsh : shamtOf w = shamt) (fn : functOf w = funct) :
    rWord rs (rtOf w) (rdOf w) shamt funct = w := by
  subst hrs hsh fn
  exact rWord_of_fields opc

theorem iWord_eq_of_fields {w : Word} {opcode : BitVec 6} (opc : opcodeOf w = opcode) :
    iWord opcode (rsOf w) (rtOf w) (imm16Of w) = w := by
  subst opc
  exact iWord_of_fields w

theorem encodeShift_of_fields {w : Word} {funct : BitVec 6} (opc : opcodeOf w = 0x00#6) (hrs : rsOf w = 0#5)
    (fn : functOf w = funct) : encodeShift funct (rdOf w) (rtOf w) (zext5 (shamtOf w)) = some w :=
  encodeShift_eq_some_iff.mpr
    ⟨shiftAmountOk_zext5 _, by rw [setWidth_zext5]; exact rWord_eq_of_fields opc hrs rfl fn⟩

theorem encodeMem_of_fields {w : Word} {opcode : BitVec 6} (opc : opcodeOf w = opcode) :
    encodeMem opcode (rtOf w) (rsOf w) (sext16 (imm16Of w)) = some w :=
  encodeMem_eq_some_iff.mpr (by rw [low16_sext16]; exact ⟨rfl, iWord_eq_of_fields opc⟩)

/-- The offset field is the low half of the distance from the next index. -/
theorem setWidth_branchIndex_sub (k : Index) (v : Imm16) : (branchIndex k v - (k + 1#30)).setWidth 16 = v := by
  have hsub : branchIndex k v - (k + 1#30) = v.signExtend 30 := by
    rw [branchIndex, BitVec.add_comm, BitVec.add_sub_cancel]
  rw [hsub]
  apply BitVec.eq_of_getLsbD_eq
  intro i hi
  rw [BitVec.getLsbD_setWidth, BitVec.getLsbD_signExtend]
  simp [hi, show i < 30 by omega]

theorem encodeJump_of_fields {k : Index} {w : Word} (opc : opcodeOf w = 0x02#6) :
    encodeJump k (.resolved (jumpIndex k (index26Of w))) = some w := by
  have hfield : (jumpIndex k (index26Of w)).setWidth 26 = index26Of w := by
    rw [jumpIndex, BitVec.setWidth_append_eq_right]
  have hregion : (jumpIndex k (index26Of w)).extractLsb' 26 4 = (k + 1#30).extractLsb' 26 4 := by
    rw [jumpIndex, BitVec.extractLsb'_append_eq_left]
  exact encodeJump_eq_some_iff.mpr ⟨_, rfl, hregion, by rw [hfield, jWord_of_fields opc]⟩

/-- `wordOf` is a left inverse of the decoder. -/
theorem wordOf_of_decode {k : Index} {w : Word} {i : Instr} (h : decode k w = .instr i) : wordOf k i = some w := by
  have hcase := decode_cases k w
  rw [h] at hcase
  cases hcase with
  | add opc fn sh | addu opc fn sh | sub opc fn sh | and opc fn sh | or opc fn sh | nor opc fn sh | slt opc fn sh
  | sltu opc fn sh => exact congrArg some (rWord_eq_of_fields opc rfl sh fn)
  | addi opc | addiu opc | slti opc | sltiu opc | andi opc | ori opc => exact congrArg some (iWord_eq_of_fields opc)
  | sll opc fn rs | srl opc fn rs => exact encodeShift_of_fields opc rs fn
  | halt zero => exact congrArg some zero.symm
  | lw opc | sw opc => exact encodeMem_of_fields opc
  | beq opc | bne opc => rw [wordOf, setWidth_branchIndex_sub, iWord_eq_of_fields opc]
  | j opc => exact encodeJump_of_fields opc

/-- Settles O45: the word is rebuilt from the index and the instruction. -/
theorem decodeDropsNoBit : Obligations.DecodeDropsNoBit := fun _ _ _ _ h h' =>
  Option.some.inj ((wordOf_of_decode h).symm.trans (wordOf_of_decode h'))

/-! ## The record of a word, by the tables of R88 -/

theorem rtypeOp_of_shiftOp {fn : BitVec 6} {op : Op} (h : shiftOp fn = some op) : rtypeOp fn = none := by
  unfold shiftOp at h
  split_ifs at h with h0 h2
  · rw [h0]; rfl
  · rw [h2]; rfl

theorem branchOp_cases {opc : BitVec 6} {op : Op} (h : branchOp opc = some op) :
    (opc = 0x04#6 ∧ op = .beq) ∨ (opc = 0x05#6 ∧ op = .bne) := by
  unfold branchOp at h
  split_ifs at h with h4 h5
  · exact .inl ⟨h4, (Option.some.inj h).symm⟩
  · exact .inr ⟨h5, (Option.some.inj h).symm⟩

section DecodeRecord
variable {k : Index} {w : Word} {op : Op}

theorem decodeRecord_of_rtype (opc : opcodeOf w = 0x00#6) (fn : rtypeOp (functOf w) = some op) (sh : shamtOf w = 0#5) :
    decodeRecord k w = ⟨op, some (rsOf w), some (rtOf w), some (rdOf w), 0#32, none, hex8 w⟩ := by
  simp [decodeRecord, specialRecord, opc, fn, sh]

theorem decodeRecord_of_shift (opc : opcodeOf w = 0x00#6) (fn : shiftOp (functOf w) = some op) (rs : rsOf w = 0#5) :
    decodeRecord k w = ⟨op, none, some (rtOf w), some (rdOf w), zext5 (shamtOf w), none, hex8 w⟩ := by
  simp [decodeRecord, specialRecord, opc, rtypeOp_of_shiftOp fn, fn, rs]

theorem decodeRecord_of_itype (opc : itypeOp (opcodeOf w) = some op) :
    decodeRecord k w = ⟨op, some (rsOf w), some (rtOf w), none, zext16 (imm16Of w), none, hex8 w⟩ := by
  have hne : opcodeOf w ≠ 0x00#6 := fun h => by simp [h, itypeOp] at opc
  simp [decodeRecord, opc, hne]

theorem decodeRecord_of_lw (opc : opcodeOf w = 0x23#6) :
    decodeRecord k w = ⟨.lw, some (rsOf w), some (rtOf w), none, sext16 (imm16Of w), none, hex8 w⟩ := by
  simp [decodeRecord, itypeOp, opc]

theorem decodeRecord_of_sw (opc : opcodeOf w = 0x2B#6) :
    decodeRecord k w = ⟨.sw, some (rsOf w), some (rtOf w), none, sext16 (imm16Of w), none, hex8 w⟩ := by
  simp [decodeRecord, itypeOp, opc]

theorem decodeRecord_of_branch (opc : branchOp (opcodeOf w) = some op) :
    decodeRecord k w = ⟨op, some (rsOf w), some (rtOf w), none, 0#32, some (.resolved (branchIndex k (imm16Of w))),
      hex8 w⟩ := by
  obtain ⟨h, rfl⟩ | ⟨h, rfl⟩ := branchOp_cases opc <;> simp [decodeRecord, itypeOp, branchOp, h]

theorem decodeRecord_of_j (opc : opcodeOf w = 0x02#6) :
    decodeRecord k w = ⟨.j, none, none, none, 0#32, some (.resolved (jumpIndex k (index26Of w))), hex8 w⟩ := by
  simp [decodeRecord, itypeOp, branchOp, opc]

end DecodeRecord

theorem zext16_toInt (v : Imm16) : (zext16 v).toInt = v.toNat := by
  have := v.isLt
  rw [BitVec.toInt_eq_toNat_of_lt] <;> simp [zext16] <;> omega

theorem immediateOk_zext16 (v : Imm16) : immediateOk (zext16 v) = true := by
  have := v.isLt
  simp only [immediateOk, zext16_toInt, Bool.and_eq_true, decide_eq_true_eq]
  omega

/-- The record of a word that the decoder reads as an instruction stands for it and is well formed. -/
theorem decodeRecord_of_instr {k : Index} {w : Word} {i : Instr} (h : decode k w = .instr i) :
    (decodeRecord k w).classify = .instr i ∧ (decodeRecord k w).op = i.op ∧ (decodeRecord k w).wellFormed = true := by
  have hcase := decode_cases k w
  rw [h] at hcase
  cases hcase with
  | add opc fn sh | addu opc fn sh | sub opc fn sh | and opc fn sh | or opc fn sh | nor opc fn sh | slt opc fn sh
  | sltu opc fn sh =>
    rw [decodeRecord_of_rtype opc (congrArg rtypeOp fn) sh]
    exact ⟨rfl, rfl, rfl⟩
  | addi opc | addiu opc | slti opc | sltiu opc | andi opc | ori opc =>
    rw [decodeRecord_of_itype (congrArg itypeOp opc)]
    simp [Record.classify, fromSlots2, Instr.op, Record.wellFormed, Record.illFormed, Record.slotsPresent,
      Record.othersEmpty, Op.family, immediateOk_zext16]
  | sll opc fn rs notHalt =>
    rw [decodeRecord_of_shift opc (congrArg shiftOp fn) rs]
    simp [Record.classify, fromSlots2, decodeSll, notHalt, Instr.op, Record.wellFormed, Record.illFormed,
      Record.slotsPresent, Record.othersEmpty, Op.family, shiftAmountOk_zext5]
  | srl opc fn rs =>
    rw [decodeRecord_of_shift opc (congrArg shiftOp fn) rs]
    simp [Record.classify, fromSlots2, Instr.op, Record.wellFormed, Record.illFormed, Record.slotsPresent,
      Record.othersEmpty, Op.family, shiftAmountOk_zext5]
  | halt zero => subst zero; exact ⟨rfl, rfl, rfl⟩
  | lw opc => rw [decodeRecord_of_lw opc]; exact ⟨rfl, rfl, rfl⟩
  | sw opc => rw [decodeRecord_of_sw opc]; exact ⟨rfl, rfl, rfl⟩
  | beq opc | bne opc => rw [decodeRecord_of_branch (congrArg branchOp opc)]; exact ⟨rfl, rfl, rfl⟩
  | j opc => rw [decodeRecord_of_j opc]; exact ⟨rfl, rfl, rfl⟩

/-- The record of a word that the decoder does not read is the `UNSUPPORTED` one. -/
theorem decodeRecord_of_unsupported {k : Index} {w : Word} {why : Unsupported} (h : decode k w = .unsupported why) :
    decodeRecord k w = unsupportedRecord w := by
  have hcase := decode_cases k w
  rw [h] at hcase
  cases hcase with
  | shamtNotZero opc fn sh =>
    obtain ⟨op, fn⟩ := fn
    simp [decodeRecord, specialRecord, opc, fn, sh]
  | rsNotZero opc fn rs =>
    obtain ⟨op, fn⟩ := fn
    simp [decodeRecord, specialRecord, opc, rtypeOp_of_shiftOp fn, fn, rs]
  | funct opc notRType notShift => simp [decodeRecord, specialRecord, opc, notRType, notShift]
  | opcode notSpecial notIType notLw notSw notBranch notJ =>
    simp [decodeRecord, notSpecial, notIType, notLw, notSw, notBranch, notJ]

/-- Settles O48: by the record of each case of the decoder. -/
theorem recordOfAWordIsItsInstruction : Obligations.RecordOfAWordIsItsInstruction := by
  refine fun k w => ⟨fun i h => ?_, fun why h => ?_⟩
  · obtain ⟨hclassify, hop, -⟩ := decodeRecord_of_instr h
    exact ⟨hclassify, hop⟩
  · rw [decodeRecord_of_unsupported h]
    rfl

/-- Every instruction the decoder reads passes the checks of an instruction term. -/
theorem wellFormed_of_decode {k : Index} {w : Word} {i : Instr} (h : decode k w = .instr i) : i.wellFormed = true := by
  have hcase := decode_cases k w
  rw [h] at hcase
  cases hcase with
  | sll _ _ _ notHalt => simp [Instr.wellFormed, Instr.illFormed, notHalt, shiftAmountOk_zext5]
  | srl => simp [Instr.wellFormed, Instr.illFormed, shiftAmountOk_zext5]
  | _ => rfl

/-- Settles O46: by the cases of the decoder, and the record of each. -/
theorem decodedInstructionsAreWellFormed : Obligations.DecodedInstructionsAreWellFormed := by
  refine fun k w => ⟨fun i => wellFormed_of_decode, ?_⟩
  cases h : decode k w with
  | instr i =>
    obtain ⟨-, -, hwf⟩ := decodeRecord_of_instr h
    exact hwf
  | unsupported why => rw [decodeRecord_of_unsupported h]; rfl

/-! ## The rows of the opcode map -/

/-- A field that the row's mask keeps is the pattern's in every word the row covers. -/
theorem extractLsb'_of_covers {row : OpcodeRow} {w : Word} (h : row.covers w = true) (start len : Nat)
    (hmask : row.mask.extractLsb' start len = BitVec.allOnes len) :
    w.extractLsb' start len = row.pattern.extractLsb' start len := by
  rw [← beq_iff_eq.mp h, BitVec.extractLsb'_and, hmask, BitVec.and_allOnes]

/-- The row's mask keeps the fields that select the RTYPE operation `row.op`. -/
def OpcodeRow.SelectsRType (row : OpcodeRow) : Prop :=
  row.mask = 0xFC0007FF#32 ∧ opcodeOf row.pattern = 0x00#6 ∧ shamtOf row.pattern = 0#5 ∧
    rtypeOp (functOf row.pattern) = some row.op

/-- The row's mask keeps the fields that select the SHIFT operation `row.op`. -/
def OpcodeRow.SelectsShift (row : OpcodeRow) : Prop :=
  row.mask = 0xFFE0003F#32 ∧ opcodeOf row.pattern = 0x00#6 ∧ rsOf row.pattern = 0#5 ∧
    shiftOp (functOf row.pattern) = some row.op

/-- The row's mask keeps the opcode, which selects `row.op`. -/
def OpcodeRow.SelectsPrimary (row : OpcodeRow) : Prop :=
  row.mask = 0xFC000000#32 ∧ (itypeOp (opcodeOf row.pattern) = some row.op ∨
    branchOp (opcodeOf row.pattern) = some row.op ∨ (opcodeOf row.pattern = 0x23#6 ∧ row.op = .lw) ∨
    (opcodeOf row.pattern = 0x2B#6 ∧ row.op = .sw) ∨ (opcodeOf row.pattern = 0x02#6 ∧ row.op = .j))

theorem opcodeRows_select : ∀ row ∈ opcodeRows, row.SelectsRType ∨ row.SelectsShift ∨ row.SelectsPrimary := by
  unfold OpcodeRow.SelectsRType OpcodeRow.SelectsShift OpcodeRow.SelectsPrimary
  decide

/-- A word that a row covers has a record of the row's operation. -/
theorem decodeRecord_op_of_covers (k : Index) {w : Word} {row : OpcodeRow} (hrow : row ∈ opcodeRows)
    (h : row.covers w = true) : (decodeRecord k w).op = row.op := by
  obtain ⟨hmask, hopc, hsh, hop⟩ | ⟨hmask, hopc, hrs, hop⟩ | ⟨hmask, hop⟩ := opcodeRows_select row hrow
  · have opc : opcodeOf w = opcodeOf row.pattern := extractLsb'_of_covers h 26 6 (by rw [hmask]; decide)
    have sh : shamtOf w = shamtOf row.pattern := extractLsb'_of_covers h 6 5 (by rw [hmask]; decide)
    have fn : functOf w = functOf row.pattern := extractLsb'_of_covers h 0 6 (by rw [hmask]; decide)
    rw [decodeRecord_of_rtype (opc.trans hopc) (fn ▸ hop) (sh.trans hsh)]
  · have opc : opcodeOf w = opcodeOf row.pattern := extractLsb'_of_covers h 26 6 (by rw [hmask]; decide)
    have rs : rsOf w = rsOf row.pattern := extractLsb'_of_covers h 21 5 (by rw [hmask]; decide)
    have fn : functOf w = functOf row.pattern := extractLsb'_of_covers h 0 6 (by rw [hmask]; decide)
    rw [decodeRecord_of_shift (opc.trans hopc) (fn ▸ hop) (rs.trans hrs)]
  · have opc : opcodeOf w = opcodeOf row.pattern := extractLsb'_of_covers h 26 6 (by rw [hmask]; decide)
    obtain hop | hop | ⟨hopc, hop⟩ | ⟨hopc, hop⟩ | ⟨hopc, hop⟩ := hop
    · rw [decodeRecord_of_itype (opc ▸ hop)]
    · rw [decodeRecord_of_branch (opc ▸ hop)]
    · rw [decodeRecord_of_lw (opc.trans hopc), hop]
    · rw [decodeRecord_of_sw (opc.trans hopc), hop]
    · rw [decodeRecord_of_j (opc.trans hopc), hop]

theorem opcodeRows_op_inj : ∀ row ∈ opcodeRows, ∀ row' ∈ opcodeRows, row.op = row'.op → row = row' := by decide

theorem opcodeRows_op_ne_unsupported : ∀ row ∈ opcodeRows, row.op ≠ .unsupported := by decide

theorem encodingInRow : ∀ i, Laws.EncodingInRow.Statement i
  | .add rd rs rt => Laws.EncodingInRow.add rd rs rt
  | .addu rd rs rt => Laws.EncodingInRow.addu rd rs rt
  | .sub rd rs rt => Laws.EncodingInRow.sub rd rs rt
  | .and rd rs rt => Laws.EncodingInRow.and rd rs rt
  | .or rd rs rt => Laws.EncodingInRow.or rd rs rt
  | .nor rd rs rt => Laws.EncodingInRow.nor rd rs rt
  | .slt rd rs rt => Laws.EncodingInRow.slt rd rs rt
  | .sltu rd rs rt => Laws.EncodingInRow.sltu rd rs rt
  | .sll rd rt imm => Laws.EncodingInRow.sll rd rt imm
  | .srl rd rt imm => Laws.EncodingInRow.srl rd rt imm
  | .halt => Laws.EncodingInRow.halt
  | .addi rt rs v => Laws.EncodingInRow.addi rt rs v
  | .addiu rt rs v => Laws.EncodingInRow.addiu rt rs v
  | .slti rt rs v => Laws.EncodingInRow.slti rt rs v
  | .sltiu rt rs v => Laws.EncodingInRow.sltiu rt rs v
  | .andi rt rs v => Laws.EncodingInRow.andi rt rs v
  | .ori rt rs v => Laws.EncodingInRow.ori rt rs v
  | .lw rt rs imm => Laws.EncodingInRow.lw rt rs imm
  | .sw rt rs imm => Laws.EncodingInRow.sw rt rs imm
  | .beq rs rt target => Laws.EncodingInRow.beq rs rt target
  | .bne rs rt target => Laws.EncodingInRow.bne rs rt target
  | .j target => Laws.EncodingInRow.j target

/-- Every word the decoder reads an instruction from is covered by a row: it is the encoder's, or a branch's word. -/
theorem exists_row_of_decode {k : Index} {w : Word} {i : Instr} (h : decode k w = .instr i) :
    ∃ row ∈ opcodeRows, row.covers w = true := by
  have hw := wordOf_of_decode h
  unfold wordOf at hw
  split at hw
  next rs rt t =>
    cases hw
    exact ⟨⟨.beq, 0xFC000000#32, 0x10000000#32⟩, by decide, beq_iff_eq.mpr (Laws.itype_covered _ rs rt _ _ rfl)⟩
  next rs rt t =>
    cases hw
    exact ⟨⟨.bne, 0xFC000000#32, 0x14000000#32⟩, by decide, beq_iff_eq.mpr (Laws.itype_covered _ rs rt _ _ rfl)⟩
  next =>
    obtain ⟨row, hrow, -, hcovers⟩ := encodingInRow i k w hw
    exact ⟨row, hrow, hcovers⟩

/-- Settles O47: a covered word has a record of the row's operation, and a decoded word is covered. -/
theorem decoderFollowsTheOpcodeMap : Obligations.DecoderFollowsTheOpcodeMap := by
  refine fun k w => ⟨fun row hrow row' hrow' h h' => ?_, fun row hrow h => ?_, fun hnone => ?_⟩
  · exact opcodeRows_op_inj row hrow row' hrow'
      ((decodeRecord_op_of_covers k hrow h).symm.trans (decodeRecord_op_of_covers k hrow' h'))
  · have hop := decodeRecord_op_of_covers k hrow h
    cases hd : decode k w with
    | instr i =>
      obtain ⟨-, hop', -⟩ := decodeRecord_of_instr hd
      exact ⟨i, rfl, hop'.symm.trans hop⟩
    | unsupported why =>
      rw [decodeRecord_of_unsupported hd] at hop
      exact absurd hop.symm (opcodeRows_op_ne_unsupported row hrow)
  · cases hd : decode k w with
    | instr i =>
      obtain ⟨row, hrow, h⟩ := exists_row_of_decode hd
      simp [hnone row hrow] at h
    | unsupported why => exact ⟨why, rfl⟩

/-! ## The spec's words, the names of the registers -/

/-- Settles O51: the eight words, evaluated. -/
theorem decodeOfTheSpecsWords : Obligations.DecodeOfTheSpecsWords :=
  ⟨by decide, by decide, by decide, by decide, by decide, by decide, by decide, by decide⟩

/-- A name that is found stands in the table at its distance from the start. -/
theorem regIndexIn_eq_some {name : String} {r : Reg} :
    ∀ {at0 : Nat} {names : List String}, regIndexIn name at0 names = some r →
      ∃ n, names[n]? = some name ∧ r = BitVec.ofNat 5 (at0 + n)
  | at0, m :: rest, h => by
    by_cases hm : m = name
    · subst hm
      exact ⟨0, rfl, by simpa [regIndexIn, eq_comm] using h⟩
    · obtain ⟨n, hn, hr⟩ := regIndexIn_eq_some (by simpa [regIndexIn, hm] using h)
      exact ⟨n + 1, hn, by rw [hr, Nat.add_assoc, Nat.add_comm 1]⟩

/-- Settles O52: the 32 names are looked up one by one, and a name that is found stands at its register's index. -/
theorem registerNamesAreDistinct : Obligations.RegisterNamesAreDistinct := by
  refine ⟨by decide, fun name r h => ?_⟩
  obtain ⟨n, hn, rfl⟩ := regIndexIn_eq_some h
  obtain ⟨hlt, -⟩ := List.getElem?_eq_some_iff.mp hn
  have hindex : (BitVec.ofNat 5 (0 + n)).toNat = n := by
    have : n < 32 := hlt
    simp
    omega
  rw [Reg.name, hindex, List.getD_eq_getElem?_getD, hn]
  rfl

end Sys2Proof
end

section
/-! SUPPORT. The two readings of a record, as an instruction and as the operands of its cycle, and the fetch through the record
at the PC. The proofs of the statements about the step function as the spec's cycle, and about loaded programs
(spec/30_encoding.md R73 to R75; spec/40_cycle_control_alu.md R110, R111). -/

namespace Sys2Proof.Machine

/-! ## What a record's slots hold -/

section Slots
variable {i : Instr} {x y z : Option Reg} {target : Option Target}

theorem fromSlots3_eq_instr_iff {make : Reg → Reg → Reg → Instr} :
    fromSlots3 make x y z = .instr i ↔ ∃ a b c, x = some a ∧ y = some b ∧ z = some c ∧ make a b c = i := by
  cases x <;> cases y <;> cases z <;> simp [fromSlots3]

theorem fromSlots2_eq_instr_iff {make : Reg → Reg → Instr} :
    fromSlots2 make x y = .instr i ↔ ∃ a b, x = some a ∧ y = some b ∧ make a b = i := by
  cases x <;> cases y <;> simp [fromSlots2]

theorem fromBranchSlots_eq_instr_iff {make : Reg → Reg → Target → Instr} :
    fromBranchSlots make x y target = .instr i ↔ ∃ a b l, x = some a ∧ y = some b ∧ target = some l ∧ make a b l = i := by
  cases x <;> cases y <;> cases target <;> simp [fromBranchSlots]

theorem fromTarget_eq_instr_iff {make : Target → Instr} :
    fromTarget make target = .instr i ↔ ∃ l, target = some l ∧ make l = i := by
  cases target <;> simp [fromTarget]

end Slots

/-- The slots of the record `r` that its family uses hold the operands of `i` (R73, R75, R80, R82, R83). -/
def HoldsOperands (r : Record) : Instr → Prop
  | .add rd rs rt | .addu rd rs rt | .sub rd rs rt | .and rd rs rt | .or rd rs rt | .nor rd rs rt | .slt rd rs rt
  | .sltu rd rs rt => r.rs = some rs ∧ r.rt = some rt ∧ r.rd = some rd
  | .sll rd rt imm => r.rt = some rt ∧ r.rd = some rd ∧ r.imm = imm ∧ isHaltPattern rd rt imm = false
  | .srl rd rt imm => r.rt = some rt ∧ r.rd = some rd ∧ r.imm = imm
  | .halt => r.rt = some 0#5 ∧ r.rd = some 0#5 ∧ r.imm = 0#32
  | .addi rt rs v | .addiu rt rs v | .slti rt rs v | .sltiu rt rs v | .andi rt rs v | .ori rt rs v =>
    r.rs = some rs ∧ r.rt = some rt ∧ low16 r.imm = v
  | .lw rt rs imm | .sw rt rs imm => r.rs = some rs ∧ r.rt = some rt ∧ r.imm = imm
  | .beq rs rt target | .bne rs rt target => r.rs = some rs ∧ r.rt = some rt ∧ r.target = some target
  | .j target => r.target = some target

/-- A record that stands for an instruction has its operation and holds its operands. -/
theorem holdsOperands_of_classify {r : Record} {i : Instr} (h : r.classify = .instr i) :
    r.op = i.op ∧ HoldsOperands r i := by
  cases hop : r.op with
  | add | addu | sub | and | or | nor | slt | sltu =>
    simp only [Record.classify, hop] at h
    obtain ⟨rd, rs, rt, hrd, hrs, hrt, rfl⟩ := fromSlots3_eq_instr_iff.mp h
    exact ⟨rfl, hrs, hrt, hrd⟩
  | sll =>
    simp only [Record.classify, hop] at h
    obtain ⟨rd, rt, hrd, hrt, rfl⟩ := fromSlots2_eq_instr_iff.mp h
    cases hhalt : isHaltPattern rd rt r.imm with
    | false =>
      rw [decodeSll, if_neg (by simp [hhalt])]
      exact ⟨rfl, hrt, hrd, rfl, hhalt⟩
    | true =>
      obtain ⟨rfl, rfl, himm⟩ := isHaltPattern_iff.mp hhalt
      rw [decodeSll, if_pos hhalt]
      exact ⟨rfl, hrt, hrd, himm⟩
  | srl =>
    simp only [Record.classify, hop] at h
    obtain ⟨rd, rt, hrd, hrt, rfl⟩ := fromSlots2_eq_instr_iff.mp h
    exact ⟨rfl, hrt, hrd, rfl⟩
  | addi | addiu | slti | sltiu | andi | ori | lw | sw =>
    simp only [Record.classify, hop] at h
    obtain ⟨rt, rs, hrt, hrs, rfl⟩ := fromSlots2_eq_instr_iff.mp h
    exact ⟨rfl, hrs, hrt, rfl⟩
  | beq | bne =>
    simp only [Record.classify, hop] at h
    obtain ⟨rs, rt, target, hrs, hrt, htarget, rfl⟩ := fromBranchSlots_eq_instr_iff.mp h
    exact ⟨rfl, hrs, hrt, htarget⟩
  | j =>
    simp only [Record.classify, hop] at h
    obtain ⟨target, htarget, rfl⟩ := fromTarget_eq_instr_iff.mp h
    exact ⟨rfl, htarget⟩
  | unsupported => simp [Record.classify, hop] at h

theorem classify_eq_unsupported_iff {r : Record} : r.classify = .unsupported ↔ r.op = .unsupported := by
  obtain ⟨op, rs, rt, rd, imm, target, text⟩ := r
  cases op with
  | add | addu | sub | and | or | nor | slt | sltu =>
    cases rd <;> cases rs <;> cases rt <;> simp [Record.classify, fromSlots3]
  | sll | srl => cases rd <;> cases rt <;> simp [Record.classify, fromSlots2]
  | addi | addiu | slti | sltiu | andi | ori | lw | sw => cases rt <;> cases rs <;> simp [Record.classify, fromSlots2]
  | beq | bne => cases rs <;> cases rt <;> cases target <;> simp [Record.classify, fromBranchSlots]
  | j => cases target <;> simp [Record.classify, fromTarget]
  | unsupported => simp [Record.classify]

theorem classify_eq_slotAbsent_iff {r : Record} : r.classify = .slotAbsent ↔ r.slotsPresent = false := by
  obtain ⟨op, rs, rt, rd, imm, target, text⟩ := r
  cases op with
  | add | addu | sub | and | or | nor | slt | sltu =>
    cases rd <;> cases rs <;> cases rt <;> simp [Record.classify, fromSlots3, Record.slotsPresent, Op.family]
  | sll | srl => cases rd <;> cases rt <;> simp [Record.classify, fromSlots2, Record.slotsPresent, Op.family]
  | addi | addiu | slti | sltiu | andi | ori | lw | sw =>
    cases rt <;> cases rs <;> simp [Record.classify, fromSlots2, Record.slotsPresent, Op.family]
  | beq | bne =>
    cases rs <;> cases rt <;> cases target <;> simp [Record.classify, fromBranchSlots, Record.slotsPresent, Op.family]
  | j => cases target <;> simp [Record.classify, fromTarget, Record.slotsPresent, Op.family]
  | unsupported => simp [Record.classify, Record.slotsPresent, Op.family]

/-! ## The fetch through the record at the PC -/

section FetchedRecord
variable {r : Record}

theorem fetchedRecord_eq_instr_iff {i : Instr} : fetchedRecord r = .instr i ↔ r.classify = .instr i := by
  unfold fetchedRecord
  cases r.classify <;> simp

theorem fetchedRecord_eq_unsupported_iff : fetchedRecord r = .unsupported ↔ r.op = .unsupported := by
  rw [← classify_eq_unsupported_iff]
  unfold fetchedRecord
  cases r.classify <;> simp

theorem fetchedRecord_eq_slotAbsent_iff : fetchedRecord r = .slotAbsent ↔ r.slotsPresent = false := by
  rw [← classify_eq_slotAbsent_iff]
  unfold fetchedRecord
  cases r.classify <;> simp

theorem fetchedRecord_ne_pastEnd : fetchedRecord r ≠ .pastEnd := by
  unfold fetchedRecord
  cases r.classify <;> simp

end FetchedRecord

/-- Fetching a word is fetching its record (R89). -/
theorem fetchedWord_eq_fetchedRecord (k : Index) (w : Word) : fetchedWord k w = fetchedRecord (decodeRecord k w) := by
  unfold fetchedWord
  cases h : decode k w with
  | instr i =>
    obtain ⟨hclassify, -, -⟩ := decodeRecord_of_instr h
    exact (fetchedRecord_eq_instr_iff.mpr hclassify).symm
  | unsupported why =>
    rw [decodeRecord_of_unsupported h]
    rfl

section Fetch
variable {s : State}

theorem State.fetch_of_fetchRecord {r : Record} (h : s.fetchRecord = some r) : s.fetch = fetchedRecord r := by
  unfold State.fetchRecord at h
  unfold State.fetch
  split at h
  · cases h
  · cases h; exact fetchedWord_eq_fetchedRecord ..
  · cases h; rfl

theorem State.fetch_eq_pastEnd_iff_entry : s.fetch = .pastEnd ↔ s.entry = none := by
  unfold State.fetch
  split
  next h => simp [h]
  next h => simp [h, fetchedWord_eq_fetchedRecord, fetchedRecord_ne_pastEnd]
  next h => simp [h, fetchedRecord_ne_pastEnd]

theorem State.fetchRecord_eq_none_iff_entry : s.fetchRecord = none ↔ s.entry = none := by
  unfold State.fetchRecord
  split <;> simp_all

theorem State.fetch_eq_pastEnd_iff : s.fetch = .pastEnd ↔ s.fetchRecord = none :=
  State.fetch_eq_pastEnd_iff_entry.trans State.fetchRecord_eq_none_iff_entry.symm

theorem State.exists_fetchRecord (h : s.fetch ≠ .pastEnd) : ∃ r, s.fetchRecord = some r :=
  Option.ne_none_iff_exists'.mp (mt State.fetch_eq_pastEnd_iff.mpr h)

theorem State.fetch_eq_instr_iff {i : Instr} :
    s.fetch = .instr i ↔ ∃ r, s.fetchRecord = some r ∧ r.classify = .instr i := by
  refine ⟨fun h => ?_, fun ⟨r, hr, h⟩ => (State.fetch_of_fetchRecord hr).trans (fetchedRecord_eq_instr_iff.mpr h)⟩
  obtain ⟨r, hr⟩ := State.exists_fetchRecord (s := s) (by simp [h])
  exact ⟨r, hr, fetchedRecord_eq_instr_iff.mp ((State.fetch_of_fetchRecord hr).symm.trans h)⟩

theorem State.fetch_eq_unsupported_iff :
    s.fetch = .unsupported ↔ ∃ r, s.fetchRecord = some r ∧ r.op = .unsupported := by
  refine ⟨fun h => ?_, fun ⟨r, hr, h⟩ => (State.fetch_of_fetchRecord hr).trans (fetchedRecord_eq_unsupported_iff.mpr h)⟩
  obtain ⟨r, hr⟩ := State.exists_fetchRecord (s := s) (by simp [h])
  exact ⟨r, hr, fetchedRecord_eq_unsupported_iff.mp ((State.fetch_of_fetchRecord hr).symm.trans h)⟩

/-- A word has every slot its record uses, so only a record of the program store can lack one. -/
theorem State.fetch_eq_slotAbsent_iff :
    s.fetch = .slotAbsent ↔ ∃ r, s.entry = some (.record r) ∧ r.slotsPresent = false := by
  unfold State.fetch
  split
  next h => simp [h]
  next w h =>
    simp only [h, fetchedWord, Option.some.injEq, reduceCtorEq, false_and, exists_false, iff_false]
    cases decode s.index w <;> simp
  next r h => simp [h, fetchedRecord_eq_slotAbsent_iff]

theorem State.mem_program_of_entry {e : Entry} (h : s.entry = some e) : e ∈ s.program := List.mem_of_getElem? h

theorem State.fetch_ne_slotAbsent_of_slotsPresent (h : s.slotsPresent) : s.fetch ≠ .slotAbsent := by
  intro hf
  obtain ⟨r, hentry, habsent⟩ := State.fetch_eq_slotAbsent_iff.mp hf
  simp [h r (State.mem_program_of_entry hentry)] at habsent

end Fetch

/-! ## The ten-step cycle of a record -/

/-- The operands of the ALU in the cycle of an instruction (R129). -/
def instrOperands (s : State) : Instr → Option Operands
  | .add _ rs rt | .addu _ rs rt | .sub _ rs rt | .and _ rs rt | .or _ rs rt | .nor _ rs rt | .slt _ rs rt
  | .sltu _ rs rt => some (rtypeOperands rs rt s)
  | .sll _ rt imm | .srl _ rt imm => some (shiftOperands rt imm s)
  | .halt => some (shiftOperands 0#5 0#32 s)
  | .addi _ rs v | .addiu _ rs v | .slti _ rs v | .sltiu _ rs v => some (signedOperands rs v s)
  | .andi _ rs v | .ori _ rs v => some (unsignedOperands rs v s)
  | .lw _ rs imm | .sw _ rs imm => some (memOperands rs imm s)
  | .beq .. | .bne .. | .j .. => none

/-- The ALU result in the cycle of an instruction (R120, R129). -/
def instrAlu (s : State) (i : Instr) : Option AluResult :=
  (aluFnOf i.op).bind fun fn => (instrOperands s i).map fun o => alu fn o.p o.q

/-- The operands of a record's cycle are those of the instruction it stands for. -/
theorem recordOperands_of_classify {r : Record} {i : Instr} (h : r.classify = .instr i) (s : State) :
    recordOperands r (r.rs.map s.reg) (r.rt.map s.reg) = instrOperands s i := by
  obtain ⟨hop, hslots⟩ := holdsOperands_of_classify h
  cases i with
  | add | addu | sub | and | or | nor | slt | sltu =>
    obtain ⟨hrs, hrt, -⟩ := hslots
    simp only [recordOperands, hop, hrs, hrt]
    rfl
  | sll =>
    obtain ⟨hrt, -, himm, -⟩ := hslots
    simp only [recordOperands, hop, hrt, himm]
    rfl
  | srl | halt =>
    obtain ⟨hrt, -, himm⟩ := hslots
    simp only [recordOperands, hop, hrt, himm]
    rfl
  | addi | addiu | slti | sltiu | andi | ori | lw | sw =>
    obtain ⟨hrs, -, rfl⟩ := hslots
    simp only [recordOperands, hop, hrs]
    rfl
  | beq | bne | j =>
    simp only [recordOperands, hop]
    rfl

theorem recordAlu_of_classify {r : Record} {i : Instr} (h : r.classify = .instr i) (s : State) :
    recordAlu r (r.rs.map s.reg) (r.rt.map s.reg) = instrAlu s i := by
  obtain ⟨hop, -⟩ := holdsOperands_of_classify h
  rw [recordAlu, recordOperands_of_classify h, hop, instrAlu]
  cases aluFnOf i.op <;> cases instrOperands s i <;> rfl

theorem cycleTransfer_of_target {r : Record} {target : Target} (h : r.target = some target) (s : State) :
    cycleTransfer r s = .next (transfer target s) := by
  obtain ⟨x, hx, htransfer⟩ | ⟨hn, htransfer⟩ := transfer_cases target s
  · simp only [cycleTransfer, h, hx, htransfer]
  · simp only [cycleTransfer, h, hn, htransfer]

theorem isHaltRecord_of_slots {r : Record} {rd rt : Reg} (hop : r.op = .sll) (hrd : r.rd = some rd) (hrt : r.rt = some rt) :
    isHaltRecord r = isHaltPattern rd rt r.imm := by
  simp [isHaltRecord, isHaltPattern, hop, hrd, hrt]

/-- A cycle with an ALU result goes on to its steps 7 to 10. -/
theorem cycleOf_of_recordAlu {r : Record} {s : State} {res : AluResult}
    (h : recordAlu r (r.rs.map s.reg) (r.rt.map s.reg) = some res) : cycleOf r s = cycleMemory r (r.rt.map s.reg) res s := by
  unfold cycleOf
  cases hf : r.op.family with
  | rtype | shift | itype | load | store => simp only [h]
  | beq | bne | jump | unsupported => simp [recordAlu, recordOperands, hf] at h

theorem vector_of_destinationOf {i : Instr} {dest : Reg} (h : destinationOf i = some dest) :
    (ctrl i.family).regWrite = true ∧ (ctrl i.family).memWrite = false := by
  cases i with
  | halt | sw | beq | bne | j => cases h
  | _ => exact ⟨rfl, rfl⟩

theorem destination_of_classify {r : Record} {i : Instr} {dest : Reg} (h : r.classify = .instr i)
    (hdest : destinationOf i = some dest) : destination r = some dest := by
  obtain ⟨hop, hslots⟩ := holdsOperands_of_classify h
  unfold destination
  rw [hop, ← hdest]
  cases i with
  | add | addu | sub | and | or | nor | slt | sltu => obtain ⟨-, -, hrd⟩ := hslots; exact hrd
  | sll | srl => obtain ⟨-, hrd, -⟩ := hslots; exact hrd
  | addi | addiu | slti | sltiu | andi | ori | lw => obtain ⟨-, hrt, -⟩ := hslots; exact hrt
  | halt | sw | beq | bne | j => cases hdest

/-- The cycle of a record that names a destination and is no halt sentinel: the ALU result, or for a load the cell at it, is
written back. -/
theorem cycleOf_of_destination {r : Record} {i : Instr} {s : State} {dest : Reg} {res : AluResult}
    (h : r.classify = .instr i) (hdest : destinationOf i = some dest) (hhalt : isHaltRecord r = false)
    (halu : instrAlu s i = some res) :
    cycleOf r s = .next (s.writeBack dest (if (ctrl i.family).mem2reg then s.memRead res.out else res.wb)) := by
  obtain ⟨hop, -⟩ := holdsOperands_of_classify h
  obtain ⟨hregWrite, hmemWrite⟩ := vector_of_destinationOf hdest
  have hfamily : r.op.family = i.family := congrArg Op.family hop
  rw [cycleOf_of_recordAlu ((recordAlu_of_classify h s).trans halu)]
  simp only [cycleMemory, cycleFinish, hfamily, hregWrite, hmemWrite, hhalt, destination_of_classify h hdest,
    Bool.false_eq_true, if_false, if_true]
  rfl

theorem cycleOf_of_classify {r : Record} {i : Instr} (h : r.classify = .instr i) (s : State) :
    cycleOf r s = exec i s := by
  obtain ⟨hop, hslots⟩ := holdsOperands_of_classify h
  have halu := recordAlu_of_classify h s
  cases i with
  | add | addu | sub | and | or | nor | slt | sltu | addi | addiu | slti | sltiu | andi | ori | lw | srl =>
    exact cycleOf_of_destination h rfl (isHaltRecord_of_op_ne_sll (by simp [hop, Instr.op])) rfl
  | sll rd rt imm =>
    obtain ⟨hrt, hrd, rfl, hhalt⟩ := hslots
    rw [exec_sll_of_not_haltPattern s (by simp [hhalt])]
    exact cycleOf_of_destination h rfl ((isHaltRecord_of_slots hop hrd hrt).trans hhalt) rfl
  | halt =>
    obtain ⟨hrt, hrd, himm⟩ := hslots
    have hhalt : isHaltRecord r = true := (isHaltRecord_of_slots hop hrd hrt).trans (by rw [himm]; rfl)
    rw [cycleOf_of_recordAlu halu]
    simp [cycleMemory, cycleFinish, hop, Instr.op, Op.family, ctrl, ControlVector.none, hhalt, exec_halt]
  | sw rt rs imm =>
    obtain ⟨-, hrt, -⟩ := hslots
    have hhalt : isHaltRecord r = false := isHaltRecord_of_op_ne_sll (by simp [hop, Instr.op])
    rw [cycleOf_of_recordAlu halu]
    simp [cycleMemory, cycleFinish, hop, Instr.op, Op.family, ctrl, ControlVector.none, hhalt, hrt, exec_sw,
      effectiveAddress]
  | beq rs rt target =>
    obtain ⟨hrs, hrt, htarget⟩ := hslots
    have hbranch : cycleOf r s = if s.reg rs == s.reg rt then cycleTransfer r s else .next s.advancePc := by
      simp [cycleOf, cycleBranch, hop, Instr.op, Op.family, hrs, hrt]
    rw [hbranch, cycleTransfer_of_target htarget]
    by_cases heq : s.reg rs = s.reg rt
    · rw [exec_beq_of_eq target heq, if_pos (beq_iff_eq.mpr heq)]
    · rw [exec_beq_of_ne target heq, if_neg (mt beq_iff_eq.mp heq)]
  | bne rs rt target =>
    obtain ⟨hrs, hrt, htarget⟩ := hslots
    have hbranch : cycleOf r s = if s.reg rs != s.reg rt then cycleTransfer r s else .next s.advancePc := by
      simp [cycleOf, cycleBranch, hop, Instr.op, Op.family, hrs, hrt]
    rw [hbranch, cycleTransfer_of_target htarget]
    by_cases heq : s.reg rs = s.reg rt
    · rw [exec_bne_of_eq target heq, if_neg (by simp [heq])]
    · rw [exec_bne_of_ne target heq, if_pos (bne_iff_ne.mpr heq)]
  | j target =>
    simp only [cycleOf, hop]
    exact cycleTransfer_of_target hslots s

theorem cycleOf_of_unsupported {r : Record} (h : r.op = .unsupported) (s : State) : cycleOf r s = .next s.advancePc := by
  simp [cycleOf, h, Op.family]

/-- Settles O42: the fetch is the reading of the record at the PC, and the cycle of a record is the meaning of what it reads
as; a record without its slots is ruled out. -/
theorem stepIsTheTenStepCycle : Obligations.StepIsTheTenStepCycle := by
  intro s hslots
  by_cases hr : s.runState = .running
  · cases hrecord : s.fetchRecord with
    | none =>
      rw [step_of_pastEnd hr (State.fetch_eq_pastEnd_iff.mpr hrecord)]
      simp only [cycle, hr, hrecord, if_true]
    | some r =>
      have hcycle : cycle s = cycleOf r s.countCycle := by simp only [cycle, hr, hrecord, if_true]
      rw [hcycle]
      cases hf : s.fetch with
      | pastEnd => simp [State.fetch_eq_pastEnd_iff.mp hf] at hrecord
      | instr i =>
        have hclassify : r.classify = .instr i :=
          fetchedRecord_eq_instr_iff.mp ((State.fetch_of_fetchRecord hrecord).symm.trans hf)
        rw [step_of_instr hr hf, cycleOf_of_classify hclassify]
      | unsupported =>
        have hop : r.op = .unsupported :=
          fetchedRecord_eq_unsupported_iff.mp ((State.fetch_of_fetchRecord hrecord).symm.trans hf)
        rw [step_of_unsupported hr hf, cycleOf_of_unsupported hop]
      | slotAbsent => exact absurd hf (State.fetch_ne_slotAbsent_of_slotsPresent hslots)
  · rw [step_of_not_running hr, cycle, if_neg hr]

/-- Settles O36: only the fetch of a record without its slots faults, and every other step answers a next state. -/
theorem stepStopsOnlyAtAnAbsentSlot : Obligations.StepStopsOnlyAtAnAbsentSlot := by
  intro s
  rw [← State.fetch_eq_slotAbsent_iff]
  by_cases hstop : s.runState = .running ∧ s.fetch = .slotAbsent
  · obtain ⟨hr, hf⟩ := hstop
    simp [step_of_slotAbsent hr hf, hr, hf]
  · obtain ⟨t, hstep⟩ : ∃ t, step s = .next t := by
      by_cases hr : s.runState = .running
      · exact step_next_of_fetch fun hf => hstop ⟨hr, hf⟩
      · exact ⟨s, step_of_not_running hr⟩
    simp [hstep, hstop]

/-! ## Loaded programs -/

/-- The checks of a well-formed record: its slots, and the literal of the two families that bound it (R73, R74). -/
theorem Record.wellFormed_iff {r : Record} : r.wellFormed = true ↔ r.slotsPresent = true ∧ r.othersEmpty = true ∧
    (r.op.family = .shift → shiftAmountOk r.imm = true) ∧ (r.op.family = .itype → immediateOk r.imm = true) := by
  unfold Record.wellFormed Record.illFormed
  cases r.slotsPresent with
  | false => simp
  | true =>
    cases r.othersEmpty with
    | false => simp
    | true => cases r.op.family <;> simp

theorem firstIllFormed_eq_none_iff :
    ∀ {program : List Entry}, firstIllFormed program = none ↔ ∀ r, Entry.record r ∈ program → r.wellFormed = true
  | [] => by simp [firstIllFormed]
  | .word w :: rest => by simp [firstIllFormed, firstIllFormed_eq_none_iff]
  | .record r :: rest => by
    cases hwf : r.wellFormed with
    | true => simp [firstIllFormed, hwf, firstIllFormed_eq_none_iff]
    | false =>
      have hill : r.illFormed ≠ none := fun h => by simp [Record.wellFormed, h] at hwf
      simp [firstIllFormed, hwf, hill]

theorem load_eq_ok_iff {program : List Entry} {labels : List (String × Index)} {s : State} :
    load program labels = .ok s ↔ program.length ≤ Config.maxProgram ∧
      (∀ r, Entry.record r ∈ program → r.wellFormed = true) ∧
      s = { State.reset with program := program, labels := labels } := by
  rw [← firstIllFormed_eq_none_iff]
  by_cases hlong : Config.maxProgram < program.length
  · simp [load, hlong]
  · cases hill : firstIllFormed program with
    | some why => simp [load, hlong, hill]
    | none => simp [load, hlong, hill, Nat.not_lt.mp hlong, eq_comm]

/-- Settles O4: by the two checks of the loader. -/
theorem loadAcceptsExactlyTheSpecifiedPrograms : Obligations.LoadAcceptsExactlyTheSpecifiedPrograms := by
  refine fun program labels => ⟨⟨fun ⟨s, h⟩ => ?_, fun ⟨hbound, hwf⟩ => ?_⟩, fun s h => ?_⟩
  · obtain ⟨hbound, hwf, -⟩ := load_eq_ok_iff.mp h
    exact ⟨hbound, hwf⟩
  · exact ⟨_, load_eq_ok_iff.mpr ⟨hbound, hwf, rfl⟩⟩
  · obtain ⟨hbound, -, rfl⟩ := load_eq_ok_iff.mp h
    exact ⟨rfl, State.inv_reset_with labels hbound⟩

/-- A state that meets the invariant and whose records have their slots steps on to such a state. -/
theorem step_progress {s : State} (h : s.Inv ∧ s.slotsPresent) : ∃ t, step s = .next t ∧ t.Inv ∧ t.slotsPresent := by
  obtain ⟨hinv, hslots⟩ := h
  obtain ⟨t, hstep⟩ := step_next_of_fetch (State.fetch_ne_slotAbsent_of_slotsPresent hslots)
  refine ⟨t, hstep, stepKeepsInvariant s t hinv hstep, ?_⟩
  simpa only [State.slotsPresent, (step_cases hstep).program_eq] using hslots

/-- Settles O5: the loader's state meets the invariant and its records have their slots, and so does every later one. -/
theorem loadedProgramNeverFaults : Obligations.LoadedProgramNeverFaults := by
  intro program labels s n hload
  obtain ⟨hbound, hwf, rfl⟩ := load_eq_ok_iff.mp hload
  obtain ⟨t, hrun, hinv, -⟩ := run_exists (fun s => step_progress) n
    ⟨State.inv_reset_with labels hbound, fun r hr => (Record.wellFormed_iff.mp (hwf r hr)).1⟩
  exact ⟨t, hrun, hinv⟩

end Sys2Proof.Machine
end

section
/-! SUPPORT. The proofs of the statements about the step (spec/10_state.md R25, R27; spec/40_cycle_control_alu.md R110 to R113;
spec/30_encoding.md R86). -/

namespace Sys2Proof.Machine

/-! ## The instruction at the PC -/

section Entry
variable {s : State}

theorem State.fetch_of_word {w : Word} (h : s.entry = some (.word w)) : s.fetch = fetchedWord s.index w := by
  simp only [State.fetch, h]

theorem State.fetch_of_record {r : Record} (h : s.entry = some (.record r)) : s.fetch = fetchedRecord r := by
  simp only [State.fetch, h]

theorem fetchedWord_eq_instr_iff {k : Index} {w : Word} {i : Instr} :
    fetchedWord k w = .instr i ↔ decode k w = .instr i := by
  unfold fetchedWord
  cases decode k w <;> simp

theorem fetchedWord_of_unsupported {k : Index} {w : Word} {why : Unsupported} (h : decode k w = .unsupported why) :
    fetchedWord k w = .unsupported := by
  simp only [fetchedWord, h]

/-- Settles O31: the fetch of a word is what it decodes to. -/
theorem stepRunsTheDecodedWord : Obligations.StepRunsTheDecodedWord := fun _ _ _ hr hentry hdecode =>
  step_of_instr hr ((State.fetch_of_word hentry).trans (fetchedWord_eq_instr_iff.mpr hdecode))

/-- Settles O32: the fetch of a record is what it stands for. -/
theorem stepRunsTheRecord : Obligations.StepRunsTheRecord := fun _ _ _ hr hentry hclassify =>
  step_of_instr hr ((State.fetch_of_record hentry).trans (fetchedRecord_eq_instr_iff.mpr hclassify))

theorem State.fetch_eq_pastEnd_iff_length : s.fetch = .pastEnd ↔ s.program.length ≤ s.pc.toNat / 4 := by
  rw [State.fetch_eq_pastEnd_iff_entry, State.entry, State.index_toNat, List.getElem?_eq_none_iff]

theorem State.entry_eq_getElem (h : s.pc.toNat / 4 < s.program.length) : s.entry = some s.program[s.pc.toNat / 4] := by
  rw [State.entry, State.index_toNat, List.getElem?_eq_getElem h]

end Entry

/-! ## The cycle counter -/

theorem StepEffect.cycleCount_eq {s t : State} (h : StepEffect s t) :
    t.cycleCount = s.cycleCount + if s.runState = .running ∧ s.fetch ≠ .pastEnd then 1 else 0 := by
  cases h with
  | stopped notRunning h => simp [h, notRunning]
  | exhausted _ fetch h => simp [h, fetch]
  | passedOver running fetch h => simp [h, running, fetch]
  | ran i running fetch effect => simpa [running, fetch] using effect.cycleCount_eq

/-- Settles O39: every case of a step but two counts the cycle. -/
theorem cycleCounterCountsFetchedCycles : Obligations.CycleCounterCountsFetchedCycles := by
  intro s t hstep
  simpa only [ne_eq, State.fetch_eq_pastEnd_iff_length, not_le] using (step_cases hstep).cycleCount_eq

theorem State.monitor_of_pastEnd {s : State} (h : s.fetch = .pastEnd) : s.monitor = none := by
  cases hm : s.monitor with
  | none => rfl
  | some m =>
    obtain ⟨r, _, -, hrecord, -⟩ := State.monitor_cases hm
    simp [State.fetch_eq_pastEnd_iff.mp h] at hrecord

/-- Settles O33: past the end the step is the stop `Exhausted`; below it the entry is there and the cycle is counted. -/
theorem fetchReadsTheEntryOrStops : Obligations.FetchReadsTheEntryOrStops := by
  refine fun s hr => ⟨s.index_toNat, fun hend => ?_, fun hlt => ⟨State.entry_eq_getElem hlt, fun t hstep => ?_⟩⟩
  · have hf := State.fetch_eq_pastEnd_iff_length.mpr hend
    exact ⟨State.monitor_of_pastEnd hf, _, step_of_pastEnd hr hf, rfl, rfl, rfl, .of_regs_eq rfl, .of_mem_eq rfl, rfl, rfl⟩
  · rw [cycleCounterCountsFetchedCycles s t hstep, if_pos ⟨hr, hlt⟩]

/-- A running cycle whose fetch finds an instruction or `UNSUPPORTED` has a monitor record. -/
theorem State.exists_monitor {s : State} (hr : s.runState = .running) (hend : s.fetch ≠ .pastEnd)
    (habsent : s.fetch ≠ .slotAbsent) : ∃ m, s.monitor = some m := by
  obtain ⟨r, hrecord⟩ := State.exists_fetchRecord hend
  obtain ⟨t, hstep⟩ := step_next_of_fetch habsent
  exact ⟨_, State.monitor_of_step hr hrecord hstep⟩

/-- Settles O55: the cycles with a record are the counted ones, and the record takes its number and PC from the state before. -/
theorem oneMonitorRecordPerCountedCycle : Obligations.OneMonitorRecordPerCountedCycle := by
  intro s t hstep
  have hcount := (step_cases hstep).cycleCount_eq
  have hcounted : ∀ m, s.monitor = some m → t.cycleCount = s.cycleCount + 1 := by
    intro m hm
    obtain ⟨r, hr, hrecord, -⟩ := State.monitor_eq_recordOfCycle hstep hm
    have hend : s.fetch ≠ .pastEnd := by simp [State.fetch_eq_pastEnd_iff, hrecord]
    rw [hcount, if_pos ⟨hr, hend⟩]
  refine ⟨⟨fun ⟨m, hm⟩ => hcounted m hm, fun h => ?_⟩, fun m hm => ?_⟩
  · obtain ⟨hr, hend⟩ : s.runState = .running ∧ s.fetch ≠ .pastEnd := by
      by_contra hne
      rw [hcount, if_neg hne] at h
      omega
    refine State.exists_monitor hr hend fun habsent => ?_
    simp [step_of_slotAbsent hr habsent] at hstep
  · obtain ⟨r, -, -, rfl⟩ := State.monitor_eq_recordOfCycle hstep hm
    exact ⟨(hcounted _ hm).symm, rfl⟩

/-! ## The PC after a step -/

theorem transfer_pc (target : Target) (s : State) :
    (∀ x, s.resolve target = some x → (transfer target s).pc.toNat = 4 * x.toNat) ∧
    (s.resolve target = none → (transfer target s).pc = s.pc) :=
  ⟨fun x hx => by rw [transfer_of_resolved hx, State.jumpTo_pc, pcOfIndex_toNat],
    fun hn => by rw [transfer_of_unresolved hn, State.raiseStop_pc]⟩

/-- The next state of a step that runs the instruction `i`. -/
theorem eq_of_step_of_exec {s t u : State} {i : Instr} (hr : s.runState = .running) (hstep : step s = .next t)
    (hf : s.fetch = .instr i) (h : exec i s.countCycle = .next u) : t = u := by
  rw [step_of_instr hr hf, h] at hstep
  exact (Host.Outcome.next.inj hstep).symm

theorem transfer_countCycle_pc (target : Target) (s : State) :
    (∀ x, s.resolve target = some x → (transfer target s.countCycle).pc.toNat = 4 * x.toNat) ∧
    (s.resolve target = none → (transfer target s.countCycle).pc = s.pc) := by
  simpa using transfer_pc target s.countCycle

/-- Without a target an instruction has neither `jump` nor `branch` in its vector. -/
theorem vector_of_targetOf_none {i : Instr} (h : targetOf i = none) :
    (ctrl i.family).jump = false ∧ (ctrl i.family).branch = false := by
  cases i with
  | beq | bne | j => cases h
  | _ => exact ⟨rfl, rfl⟩

/-- Settles O38: by the exact next state of each kind of step. -/
theorem pcAfterAStep : Obligations.PcAfterAStep := by
  intro s t hr hstep
  refine ⟨fun hf => ?_, fun hf => ?_, fun i hf htarget => ?_, fun target hf => ?_, fun rs rt target hf => ?_,
    fun rs rt target hf => ?_⟩
  · cases (step_of_pastEnd hr hf).symm.trans hstep
    rfl
  · cases (step_of_unsupported hr hf).symm.trans hstep
    rfl
  · obtain ⟨hjump, hbranch⟩ := vector_of_targetOf_none htarget
    exact (exec_cases ((step_of_instr hr hf).symm.trans hstep)).pc_eq hjump hbranch
  · rw [eq_of_step_of_exec hr hstep hf (exec_j target)]
    exact transfer_countCycle_pc target s
  · refine ⟨fun hne => ?_, fun heq => ?_⟩
    · rw [eq_of_step_of_exec hr hstep hf (exec_beq_of_ne target hne)]
      rfl
    · rw [eq_of_step_of_exec hr hstep hf (exec_beq_of_eq target heq)]
      exact transfer_countCycle_pc target s
  · refine ⟨fun heq => ?_, fun hne => ?_⟩
    · rw [eq_of_step_of_exec hr hstep hf (exec_bne_of_eq target heq)]
      rfl
    · rw [eq_of_step_of_exec hr hstep hf (exec_bne_of_ne target hne)]
      exact transfer_countCycle_pc target s

/-! ## The halt word -/

/-- Settles O22: the word 0 decodes to the halt sentinel at every index; its record is an `sll` with all operands 0. -/
theorem haltWordEndsTheRun : Obligations.HaltWordEndsTheRun := by
  intro s hr hentry
  have hf : s.fetch = .instr .halt := State.fetch_of_word hentry
  have hstep : step s = .next s.countCycle.haltNow := step_of_instr hr hf
  refine ⟨_, hstep, rfl, rfl, fun haligned => ?_, .of_regs_eq rfl, .of_mem_eq rfl, ⟨rfl, rfl⟩,
    run_of_not_running (by simp), ?_⟩
  · simp only [State.haltNow_pc, State.countCycle_pc, State.index_toNat, BitVec.toNat_add, BitVec.toNat_ofNat]
    omega
  · have hrecord : s.fetchRecord = some (decodeRecord s.index 0#32) := by simp only [State.fetchRecord, hentry]
    exact ⟨_, State.monitor_of_step hr hrecord hstep, rfl, rfl, rfl⟩

/-! ## UNSUPPORTED -/

/-- Settles O34: a word in no row and a record with the op `UNSUPPORTED` both have a record at the PC with that op, whose
cycle uses neither the ALU nor any signal of the vector. -/
theorem unsupportedInstructionIsPassedOver : Obligations.UnsupportedInstructionIsPassedOver := by
  intro s hr hentry
  have hf : s.fetch = .unsupported := by
    obtain ⟨w, hw, hnone⟩ | ⟨r, hrecord, hop⟩ := hentry
    · obtain ⟨-, -, hunsupported⟩ := decoderFollowsTheOpcodeMap s.index w
      obtain ⟨why, hwhy⟩ := hunsupported hnone
      exact (State.fetch_of_word hw).trans (fetchedWord_of_unsupported hwhy)
    · exact (State.fetch_of_record hrecord).trans (fetchedRecord_eq_unsupported_iff.mpr hop)
  obtain ⟨r, hrecord, hop⟩ := State.fetch_eq_unsupported_iff.mp hf
  have hstep := step_of_unsupported hr hf
  refine ⟨_, hstep, rfl, rfl, hr, .of_regs_eq rfl, .of_mem_eq rfl, ⟨rfl, rfl⟩, _, State.monitor_of_step hr hrecord hstep,
    decide_eq_true hop, ?_, ?_⟩
  · simp only [recordOfCycle, hop]
    rfl
  · have halu : aluFnOf r.op = none := by rw [hop]; rfl
    simp only [recordOfCycle, monitorAluOut, recordAlu_of_aluFnOf_none halu, Option.map_none]

/-! ## Programs of words -/

/-- A decoded target needs no look-up. -/
theorem resolve_of_decode {k : Index} {w : Word} {i : Instr} {target : Target} (h : decode k w = .instr i)
    (htarget : targetOf i = some target) (s : State) : s.resolve target ≠ none := by
  have hcase := decode_cases k w
  rw [h] at hcase
  cases hcase with
  | beq | bne | j => cases htarget; simp
  | _ => cases htarget

/-- What a word-level program fetches was decoded from a word. -/
theorem State.exists_decode_of_wordLevel {s : State} {i : Instr} (h : s.wordLevel) (hf : s.fetch = .instr i) :
    ∃ w, decode s.index w = .instr i := by
  obtain ⟨e, hentry⟩ : ∃ e, s.entry = some e :=
    Option.ne_none_iff_exists'.mp (mt State.fetch_eq_pastEnd_iff_entry.mpr (by simp [hf]))
  obtain ⟨w, rfl⟩ := h e (State.mem_program_of_entry hentry)
  exact ⟨w, fetchedWord_eq_instr_iff.mp ((State.fetch_of_word hentry).symm.trans hf)⟩

/-- Settles O41: a word-level program stays one, and a decoded target always resolves. -/
theorem wordProgramsNeverReachLabelError : Obligations.WordProgramsNeverReachLabelError := by
  intro s t n hwords hrunState hrun
  refine (run_induction (P := fun u => u.wordLevel ∧ u.runState ≠ .labelError) ?_ n ⟨hwords, hrunState⟩ hrun).2
  intro u v ⟨hwords, hrunState⟩ hstep
  have hcase := step_cases hstep
  refine ⟨by simpa only [State.wordLevel, hcase.program_eq] using hwords, ?_⟩
  cases hcase with
  | stopped _ h => subst h; exact hrunState
  | exhausted _ _ h => simp [h]
  | passedOver _ _ h => simpa [h] using hrunState
  | ran i _ fetch effect =>
    cases effect with
    | labelError target names fails =>
      obtain ⟨w, hdecode⟩ := State.exists_decode_of_wordLevel hwords fetch
      exact absurd fails (resolve_of_decode hdecode names _)
    | wrote _ _ _ _ h | stored _ _ _ _ h | fellThrough _ h | jumped _ _ _ _ h => simpa [h] using hrunState
    | halted _ h => simp [h]

end Sys2Proof.Machine
end

section
/-! SUPPORT. The proofs of the statements that a word and the instruction it encodes run alike (spec/30_encoding.md R73, R74,
R94 to R99). -/

namespace Sys2Proof.Machine

/-! ## An instruction with its label resolved -/

theorem resolvedAt_wellFormed (x : Index) (i : Instr) : (resolvedAt x i).wellFormed = i.wellFormed := by
  cases i <;> rfl

/-- Where the table resolves the label of an instruction to `x`, the resolved instruction has the same meaning. -/
theorem exec_resolvedAt {i : Instr} {s : State} {x : Index}
    (h : ∀ target, targetOf i = some target → s.resolve target = some x) : exec (resolvedAt x i) s = exec i s := by
  have htransfer : ∀ target, targetOf i = some target → transfer (.resolved x) s = transfer target s := fun target ht => by
    rw [transfer_of_resolved (s.resolve_resolved x), transfer_of_resolved (h target ht)]
  cases i with
  | beq rs rt target => simp only [resolvedAt, exec, execBeq, branchIf, htransfer target rfl]
  | bne rs rt target => simp only [resolvedAt, exec, execBne, branchIf, htransfer target rfl]
  | j target => simp only [resolvedAt, exec, execJ, htransfer target rfl]
  | _ => rfl

/-- Settles O49: the word decodes to the instruction with its label resolved. -/
theorem wordLevelAgreesWithRecordLevel : Obligations.WordLevelAgreesWithRecordLevel := by
  intro k i s x w i' hwf htarget hencode hdecode
  have h := decodeOfEncodeIsTheInstruction k (resolvedAt x i) w ((resolvedAt_wellFormed x i).trans hwf) hencode
  cases hdecode.symm.trans h
  exact exec_resolvedAt htarget

/-! ## The records of a source text -/

theorem bind_eq_ok_iff {α β : Type} {x : Except AsmError α} {f : α → Except AsmError β} {b : β} :
    (x >>= f) = .ok b ↔ ∃ a, x = .ok a ∧ f a = .ok b := by
  cases x <;> simp [bind, Except.bind]

theorem asmLiteral_eq_ok_iff {lo hi v : Int} {imm : Word} :
    asmLiteral lo hi v = .ok imm ↔ (lo ≤ v ∧ v ≤ hi) ∧ BitVec.ofInt 32 v = imm := by
  unfold asmLiteral
  split <;> simp [*]

/-- The literal of a parsed operand list was in range. -/
theorem range_of_asmRegsLiteral {lo hi : Int} {operands : List AsmOperand} {x y : Reg} {imm : Word}
    (h : asmRegsLiteral lo hi operands = .ok (x, y, imm)) : ∃ v, lo ≤ v ∧ v ≤ hi ∧ imm = BitVec.ofInt 32 v := by
  unfold asmRegsLiteral at h
  split at h
  next v =>
    simp only [bind_eq_ok_iff] at h
    obtain ⟨_, -, _, -, imm', himm, h⟩ := h
    cases h
    obtain ⟨⟨hlo, hhi⟩, himm⟩ := asmLiteral_eq_ok_iff.mp himm
    exact ⟨v, hlo, hhi, himm.symm⟩
  next => cases h

theorem shiftAmountOk_ofInt {v : Int} (hlo : 0 ≤ v) (hhi : v ≤ 31) : shiftAmountOk (BitVec.ofInt 32 v) = true := by
  simp only [shiftAmountOk, BitVec.toNat_ofInt, decide_eq_true_eq]
  omega

theorem immediateOk_ofInt {v : Int} (hlo : -32768 ≤ v) (hhi : v ≤ 65535) : immediateOk (BitVec.ofInt 32 v) = true := by
  have htoInt : (BitVec.ofInt 32 v).toInt = v := by
    rw [BitVec.toInt_ofInt, Int.bmod_eq_of_le (by omega) (by omega)]
  simp [immediateOk, htoInt, hlo, hhi]

/-- The assembler fills exactly the slots of the operation's family, and its literals are in range. -/
theorem asmRecord_wellFormed {op : Op} {operands : List AsmOperand} {text : String} {r : Record}
    (h : asmRecord op operands text = .ok r) : r.wellFormed = true := by
  rw [Record.wellFormed_iff]
  cases hf : op.family with
  | rtype | load | store | beq | bne =>
    simp only [asmRecord, hf] at h
    obtain ⟨_, -, h⟩ := bind_eq_ok_iff.mp h
    cases h
    simp [Record.slotsPresent, Record.othersEmpty, hf]
  | shift =>
    simp only [asmRecord, hf] at h
    obtain ⟨⟨rd, rt, imm⟩, hoperands, h⟩ := bind_eq_ok_iff.mp h
    cases h
    obtain ⟨v, hlo, hhi, rfl⟩ := range_of_asmRegsLiteral hoperands
    simp [Record.slotsPresent, Record.othersEmpty, hf, shiftAmountOk_ofInt hlo hhi]
  | itype =>
    simp only [asmRecord, hf] at h
    obtain ⟨⟨rt, rs, imm⟩, hoperands, h⟩ := bind_eq_ok_iff.mp h
    cases h
    obtain ⟨v, hlo, hhi, rfl⟩ := range_of_asmRegsLiteral hoperands
    simp [Record.slotsPresent, Record.othersEmpty, hf, immediateOk_ofInt hlo hhi]
  | jump =>
    simp only [asmRecord, hf] at h
    obtain ⟨l, -, h⟩ := bind_eq_ok_iff.mp h
    cases h
    simp [Record.slotsPresent, Record.othersEmpty, hf]
  | unsupported =>
    simp only [asmRecord, hf] at h
    cases h
    simp [Record.slotsPresent, Record.othersEmpty, Op.family]

theorem assemble_cons_of_no_body {line : SourceLine} {rest : List SourceLine} (hbody : line.body = none) :
    assemble (line :: rest) = assemble rest := by
  simp only [assemble, hbody]

/-- A text that begins with an instruction line gives that line's record and then those of the rest. -/
theorem assemble_cons_of_body {line : SourceLine} {rest : List SourceLine} {records : List Record} {name : String}
    {operands : List AsmOperand} (hbody : line.body = some (name, operands))
    (h : assemble (line :: rest) = .ok records) : ∃ r rs, asmRecord (opOfMnemonic name) operands line.text = .ok r ∧
      assemble rest = .ok rs ∧ records = r :: rs := by
  simp only [assemble, hbody] at h
  obtain ⟨r, hr, h⟩ := bind_eq_ok_iff.mp h
  obtain ⟨rs, hrs, h⟩ := bind_eq_ok_iff.mp h
  cases h
  exact ⟨r, rs, hr, hrs, rfl⟩

/-- One well-formed record for each instruction line. -/
theorem assemble_ok {lines : List SourceLine} :
    ∀ {records : List Record}, assemble lines = .ok records →
      records.length = (lines.filter fun line => line.body.isSome).length ∧ ∀ r ∈ records, r.wellFormed = true := by
  induction lines with
  | nil => rintro records ⟨⟩; simp
  | cons line rest ih =>
    intro records h
    cases hbody : line.body with
    | none =>
      rw [assemble_cons_of_no_body hbody] at h
      simpa [hbody] using ih h
    | some body =>
      obtain ⟨r, rs, hr, hrs, rfl⟩ := assemble_cons_of_body hbody h
      obtain ⟨hlength, hwf⟩ := ih hrs
      exact ⟨by simp [hbody, hlength], List.forall_mem_cons.mpr ⟨asmRecord_wellFormed hr, hwf⟩⟩

/-! ## The words of a source text -/

/-- The word of a record is that of the instruction it stands for, at the index its target slot resolves to. -/
theorem asmWord_ok {labels : List (String × Index)} {k : Index} {r : Record} {w : Word}
    (h : asmWord labels k r = .ok w) : ∃ x i, asmTarget labels r.target = .ok x ∧ r.classify = .instr i ∧
      encode k (resolvedAt x i) = some w := by
  obtain ⟨x, hx, h⟩ := bind_eq_ok_iff.mp h
  cases hclassify : r.classify with
  | instr i =>
    simp only [hclassify] at h
    cases hencode : encode k (resolvedAt x i) with
    | none => simp [hencode] at h
    | some w' =>
      simp only [hencode] at h
      cases h
      exact ⟨x, i, hx, rfl, hencode⟩
  | unsupported | slotAbsent => simp [hclassify] at h

/-- There is one word for each record, and it is the word of that record at its index. -/
theorem assembleWords_ok {labels : List (String × Index)} {records : List Record} :
    ∀ {k : Nat} {words : List Word}, assembleWords labels k records = .ok words → words.length = records.length ∧
      ∀ (j : Nat) (w : Word) (r : Record), words[j]? = some w → records[j]? = some r →
        asmWord labels (BitVec.ofNat 30 (k + j)) r = .ok w := by
  induction records with
  | nil => rintro k words ⟨⟩; simp
  | cons r rest ih =>
    intro k words h
    obtain ⟨w, hw, h⟩ := bind_eq_ok_iff.mp h
    obtain ⟨ws, hws, h⟩ := bind_eq_ok_iff.mp h
    cases h
    obtain ⟨hlength, hword⟩ := ih hws
    refine ⟨congrArg (· + 1) hlength, fun j => ?_⟩
    cases j with
    | zero => rintro _ _ ⟨⟩ ⟨⟩; exact hw
    | succ j =>
      intro w' r' hw' hr'
      rw [Nat.add_comm j, ← Nat.add_assoc]
      exact hword j w' r' hw' hr'

theorem assembleProgram_ok {lines : List SourceLine} {program : List Entry} {labels : List (String × Index)}
    (h : assembleProgram lines = .ok (program, labels)) :
    ∃ records, assemble lines = .ok records ∧ labelTable 0 lines = .ok labels ∧ program = records.map .record := by
  obtain ⟨records, hrecords, h⟩ := bind_eq_ok_iff.mp h
  obtain ⟨labels', hlabels, h⟩ := bind_eq_ok_iff.mp h
  cases h
  exact ⟨records, hrecords, hlabels, rfl⟩

theorem assembleWordProgram_ok {lines : List SourceLine} {words : List Entry}
    (h : assembleWordProgram lines = .ok words) : ∃ records labels ws, assemble lines = .ok records ∧
      labelTable 0 lines = .ok labels ∧ assembleWords labels 0 records = .ok ws ∧ words = ws.map .word := by
  obtain ⟨records, hrecords, h⟩ := bind_eq_ok_iff.mp h
  obtain ⟨labels, hlabels, h⟩ := bind_eq_ok_iff.mp h
  obtain ⟨ws, hws, h⟩ := bind_eq_ok_iff.mp h
  cases h
  exact ⟨records, labels, ws, hrecords, hlabels, hws, rfl⟩

/-! ## A record and its word -/

theorem resolve_of_asmTarget {s : State} {target : Target} {x : Index}
    (h : asmTarget s.labels (some target) = .ok x) : s.resolve target = some x := by
  cases target with
  | resolved t => cases h; rfl
  | label name =>
    unfold asmTarget at h
    unfold State.resolve
    cases hindex : labelIndex name s.labels with
    | some t => simpa [hindex] using h
    | none => simp [hindex] at h

theorem target_of_classify {r : Record} {i : Instr} {target : Target} (h : r.classify = .instr i)
    (htarget : targetOf i = some target) : r.target = some target := by
  obtain ⟨-, hslots⟩ := holdsOperands_of_classify h
  cases i with
  | beq | bne => obtain ⟨-, -, hslot⟩ := hslots; exact hslot.trans htarget
  | j => exact hslots.trans htarget
  | _ => cases htarget

/-- A well-formed record stands for a well-formed instruction. -/
theorem wellFormed_of_classify {r : Record} {i : Instr} (hwf : r.wellFormed = true) (h : r.classify = .instr i) :
    i.wellFormed = true := by
  obtain ⟨hop, hslots⟩ := holdsOperands_of_classify h
  obtain ⟨-, -, hshift, -⟩ := Record.wellFormed_iff.mp hwf
  cases i with
  | sll rd rt imm =>
    obtain ⟨-, -, rfl, hhalt⟩ := hslots
    simp [Instr.wellFormed, Instr.illFormed, hhalt, hshift (congrArg Op.family hop)]
  | srl rd rt imm =>
    obtain ⟨-, -, rfl⟩ := hslots
    simp [Instr.wellFormed, Instr.illFormed, hshift (congrArg Op.family hop)]
  | _ => rfl

/-- A well-formed record and its word at an index change every state with the assembler's label table alike. -/
theorem exec_of_asmWord {k : Index} {r : Record} {w : Word} {s : State} (hwf : r.wellFormed = true)
    (h : asmWord s.labels k r = .ok w) :
    ∃ i i', r.classify = .instr i ∧ decode k w = .instr i' ∧ exec i' s = exec i s := by
  obtain ⟨x, i, hx, hclassify, hencode⟩ := asmWord_ok h
  have hwf := (resolvedAt_wellFormed x i).trans (wellFormed_of_classify hwf hclassify)
  refine ⟨i, _, hclassify, decodeOfEncodeIsTheInstruction k _ w hwf hencode, exec_resolvedAt fun target htarget => ?_⟩
  rw [target_of_classify hclassify htarget] at hx
  exact resolve_of_asmTarget hx

/-- Settles O50: record by record; the record and the word at an index come from one line of the text. -/
theorem assembledProgramsRunAlikeAtBothLevels : Obligations.AssembledProgramsRunAlikeAtBothLevels := by
  intro lines program labels hprogram
  obtain ⟨records, hrecords, hlabels, rfl⟩ := assembleProgram_ok hprogram
  obtain ⟨hlength, hwf⟩ := assemble_ok hrecords
  refine ⟨by rw [List.length_map, hlength], fun e he => ?_, fun words hwords => ?_⟩
  · obtain ⟨r, hr, rfl⟩ := List.mem_map.mp he
    exact ⟨r, rfl, hwf r hr⟩
  · obtain ⟨records', labels', ws, hrecords', hlabels', hws, rfl⟩ := assembleWordProgram_ok hwords
    cases hrecords.symm.trans hrecords'
    cases hlabels.symm.trans hlabels'
    obtain ⟨hwsLength, hword⟩ := assembleWords_ok hws
    refine ⟨by rw [List.length_map, List.length_map, hwsLength], fun k w r s hw hr hs => ?_⟩
    have hw : ws[k.toNat]? = some w := by simpa using hw
    have hr : records[k.toNat]? = some r := by simpa using hr
    have hasm := hword k.toNat w r hw hr
    rw [Nat.zero_add, BitVec.ofNat_toNat, BitVec.setWidth_eq, ← hs] at hasm
    exact exec_of_asmWord (hwf r (List.mem_of_getElem? hr)) hasm

end Sys2Proof.Machine
end

section
/-! SUPPORT. The proofs of the statements about what the monitor record reports and what the ports carry
(spec/46_monitor.md R190, R193, R195; spec/00_scope.md R8). -/

namespace Sys2Proof.Machine

/-! ## The record of an instruction's cycle -/

section Report
variable {r : Record} {i : Instr} (h : r.classify = .instr i) (s t : State)
include h

theorem recordOfCycle_ctrl : (recordOfCycle r s t).ctrl = ctrl i.family := by
  obtain ⟨hop, -⟩ := holdsOperands_of_classify h
  exact congrArg (fun op => ctrl op.family) hop

theorem recordOfCycle_aluOut : (recordOfCycle r s t).aluOut = (instrAlu s i).map (·.out) :=
  congrArg (Option.map AluResult.out) (recordAlu_of_classify h s)

theorem recordOfCycle_memAddr : (recordOfCycle r s t).memAddr =
    reportWhen ((ctrl i.family).memRead || (ctrl i.family).memWrite) ((instrAlu s i).map (·.out)) := by
  rw [← recordOfCycle_ctrl h s t, ← recordOfCycle_aluOut h s t]
  rfl

theorem recordOfCycle_stored : (recordOfCycle r s t).stored =
    reportWhen (ctrl i.family).memWrite (r.rt.map s.reg) := by
  rw [← recordOfCycle_ctrl h s t]
  rfl

theorem recordOfCycle_loaded : (recordOfCycle r s t).loaded =
    reportWhen (ctrl i.family).memRead ((recordOfCycle r s t).memAddr.map s.memRead) := by
  rw [← recordOfCycle_ctrl h s t]
  rfl

theorem recordOfCycle_label :
    (recordOfCycle r s t).label = if (ctrl i.family).branch then targetOf i else none := by
  obtain ⟨hop, hslots⟩ := holdsOperands_of_classify h
  show monitorLabel r = _
  simp only [monitorLabel, hop]
  cases i with
  | beq | bne => obtain ⟨-, -, htarget⟩ := hslots; exact htarget
  | _ => rfl

theorem recordOfCycle_unsupported : (recordOfCycle r s t).unsupported = false := by
  obtain ⟨hop, -⟩ := holdsOperands_of_classify h
  have hne : r.op ≠ .unsupported := by rw [hop]; cases i <;> nofun
  exact decide_eq_false hne

end Report

theorem recordOfCycle_of_unsupported {r : Record} (hop : r.op = .unsupported) (s t : State) :
    (recordOfCycle r s t).aluOut = none ∧ (recordOfCycle r s t).memAddr = none ∧ (recordOfCycle r s t).stored = none ∧
    (recordOfCycle r s t).loaded = none ∧ (recordOfCycle r s t).label = none ∧
    (recordOfCycle r s t).ctrl = ctrl .unsupported ∧ (recordOfCycle r s t).unsupported = true := by
  have halu : aluFnOf r.op = none := by rw [hop]; rfl
  simp [recordOfCycle, monitorAluOut, recordAlu_of_aluFnOf_none halu, monitorLabel, hop, Op.family, reportWhen, ctrl,
    ControlVector.none]

/-- Settles O58: the record of the cycle is read off the instruction that the record at the PC stands for. -/
theorem monitorReportsTheAluOutput : Obligations.MonitorReportsTheAluOutput := by
  intro s m hm
  obtain ⟨r, t, -, hrecord, -, rfl⟩ := State.monitor_cases hm
  refine ⟨fun r' hr' => ?_, fun hf => ?_, fun i hf => ?_⟩
  · cases hrecord.symm.trans hr'
    rfl
  · obtain ⟨r', hr', hop⟩ := State.fetch_eq_unsupported_iff.mp hf
    cases hrecord.symm.trans hr'
    exact recordOfCycle_of_unsupported hop s t
  · obtain ⟨r', hr', hclassify⟩ := State.fetch_eq_instr_iff.mp hf
    cases hrecord.symm.trans hr'
    rw [recordOfCycle_aluOut hclassify, recordOfCycle_loaded hclassify, recordOfCycle_memAddr hclassify,
      recordOfCycle_stored hclassify, recordOfCycle_label hclassify, recordOfCycle_ctrl hclassify,
      recordOfCycle_unsupported hclassify]
    cases i with
    | sll rd rt imm =>
      have hshift := congrArg (fun n => some (s.reg rt <<< n)) (shiftAmount_eq_mod imm)
      exact ⟨hshift, rfl, rfl, rfl, rfl, rfl, rfl⟩
    | srl rd rt imm =>
      have hshift := congrArg (fun n => some (s.reg rt >>> n)) (shiftAmount_eq_mod imm)
      exact ⟨hshift, rfl, rfl, rfl, rfl, rfl, rfl⟩
    | sw rt rs imm =>
      obtain ⟨-, -, hrt, -⟩ := holdsOperands_of_classify hclassify
      rw [hrt]
      exact ⟨rfl, rfl, rfl, rfl, rfl, rfl, rfl⟩
    | _ => exact ⟨rfl, rfl, rfl, rfl, rfl, rfl, rfl⟩

/-! ## The data ports -/

section DataPorts
variable {s : State} {m : MonitorRecord}

/-- The memory fields of a record: those of a `sw`, those of a `lw`, or none. -/
theorem State.monitor_memory_cases (hm : s.monitor = some m) :
    (∃ rt rs imm, s.fetch = .instr (.sw rt rs imm) ∧ m.memAddr = some (effectiveAddress rs imm s) ∧
      m.stored = some (s.reg rt) ∧ m.loaded = none) ∨
    (∃ rt rs imm, s.fetch = .instr (.lw rt rs imm) ∧ m.memAddr = some (effectiveAddress rs imm s) ∧
      m.stored = none ∧ m.loaded = some (s.memRead (effectiveAddress rs imm s))) ∨
    ((∀ rt rs imm, s.fetch ≠ .instr (.sw rt rs imm)) ∧ (∀ rt rs imm, s.fetch ≠ .instr (.lw rt rs imm)) ∧
      m.memAddr = none ∧ m.stored = none ∧ m.loaded = none) := by
  obtain ⟨-, hunsupported, hinstr⟩ := monitorReportsTheAluOutput s m hm
  obtain ⟨r, t, hr, hrecord, hstep, -⟩ := State.monitor_cases hm
  cases hf : s.fetch with
  | pastEnd => simp [State.fetch_eq_pastEnd_iff.mp hf] at hrecord
  | slotAbsent => simp [step_of_slotAbsent hr hf] at hstep
  | unsupported =>
    obtain ⟨-, hmemAddr, hstored, hloaded, -⟩ := hunsupported hf
    exact .inr (.inr ⟨nofun, nofun, hmemAddr, hstored, hloaded⟩)
  | instr i =>
    obtain ⟨-, hmemAddr, hstored, hloaded, -⟩ := hinstr i hf
    cases i with
    | sw rt rs imm => exact .inl ⟨rt, rs, imm, rfl, hmemAddr, hstored, hloaded⟩
    | lw rt rs imm => exact .inr (.inl ⟨rt, rs, imm, rfl, hmemAddr, hstored, hloaded⟩)
    | _ => exact .inr (.inr ⟨nofun, nofun, hmemAddr, hstored, hloaded⟩)

/-- The data port of a cycle, `rst = 0`: a write, a read, or nothing. -/
theorem State.dataPort_cases (s : State) :
    (s.runState = .running ∧ ∃ rt rs imm, s.fetch = .instr (.sw rt rs imm) ∧
      (s.ports false).dmemAddr = some (effectiveAddress rs imm s) ∧ (s.ports false).dmemWdata = some (s.reg rt) ∧
      (s.ports false).dmemWe = true ∧ (s.ports false).dmemRe = false) ∨
    (s.runState = .running ∧ ∃ rt rs imm, s.fetch = .instr (.lw rt rs imm) ∧
      (s.ports false).dmemAddr = some (effectiveAddress rs imm s) ∧ (s.ports false).dmemWdata = none ∧
      (s.ports false).dmemWe = false ∧ (s.ports false).dmemRe = true) ∨
    ((s.runState = .running → ∀ rt rs imm, s.fetch ≠ .instr (.sw rt rs imm)) ∧
      (s.runState = .running → ∀ rt rs imm, s.fetch ≠ .instr (.lw rt rs imm)) ∧
      (s.ports false).dmemAddr = none ∧ (s.ports false).dmemWdata = none ∧
      (s.ports false).dmemWe = false ∧ (s.ports false).dmemRe = false) := by
  cases hm : s.monitor with
  | none =>
    have hidle : ∀ i, s.runState = .running → s.fetch ≠ .instr i := fun i hr hf => by
      obtain ⟨m, hm'⟩ := State.exists_monitor hr (by simp [hf]) (by simp [hf])
      simp [hm] at hm'
    refine .inr (.inr ⟨fun hr _ _ _ => hidle _ hr, fun hr _ _ _ => hidle _ hr, ?_⟩)
    simp [State.ports, hm]
  | some m =>
    obtain ⟨-, -, hr, -⟩ := State.monitor_cases hm
    obtain ⟨rt, rs, imm, hf, ha, hw, hl⟩ | ⟨rt, rs, imm, hf, ha, hw, hl⟩ | ⟨hsw, hlw, ha, hw, hl⟩ :=
      State.monitor_memory_cases hm
    · exact .inl ⟨hr, rt, rs, imm, hf, by simp [State.ports, hm, ha, hw, hl]⟩
    · exact .inr (.inl ⟨hr, rt, rs, imm, hf, by simp [State.ports, hm, ha, hw, hl]⟩)
    · exact .inr (.inr ⟨fun _ => hsw, fun _ => hlw, by simp [State.ports, hm, ha, hw, hl]⟩)

end DataPorts

/-- Settles O60: by the three cases of the data port; the other ports are the state's own. -/
theorem portsFollowTheCycle : Obligations.PortsFollowTheCycle := by
  intro s _
  refine ⟨fun rst => ⟨rfl, ?_, State.entry_eq_getElem, ?_, rfl⟩, ?_⟩
  · simp [State.ports, State.index_toNat]
  · cases h : s.runState <;> simp [State.ports, h, RunState.code]
  have hrdata : (s.ports false).dmemRdata = (s.ports false).dmemAddr.map s.memRead := rfl
  have hmonitor : (s.ports false).monitor = s.monitor := rfl
  have hreset : (s.ports true).dmemWe = false ∧ (s.ports true).dmemRe = false ∧ (s.ports true).dmemAddr = none ∧
      (s.ports true).dmemRdata = none ∧ (s.ports true).dmemWdata = none ∧ (s.ports true).monitor = none :=
    ⟨rfl, rfl, rfl, rfl, rfl, rfl⟩
  obtain ⟨hr, rt, rs, imm, hf, haddr, hwdata, hwe, hre⟩ | ⟨hr, rt, rs, imm, hf, haddr, hwdata, hwe, hre⟩ |
    ⟨hsw, hlw, haddr, hwdata, hwe, hre⟩ := s.dataPort_cases
  · simp [hr, hf, haddr, hwdata, hwe, hre, hrdata, hmonitor, hreset]
  · simp [hr, hf, haddr, hwdata, hwe, hre, hrdata, hmonitor, hreset]
  · simpa [haddr, hwdata, hwe, hre, hrdata, hmonitor, hreset] using And.intro hsw ⟨hlw, hsw, hlw⟩

end Sys2Proof.Machine
end
